-- ==== Sys2Proof/Word.lean ====
section
/-! DEFINITION. The word and byte types of the machine (spec/00_scope.md R5, R8). -/

namespace Sys2Proof

/-- One addressable memory cell's contents, 8 bits (R5 `BYTE_BITS`). -/
abbrev Byte := BitVec 8

/-- A 24-bit word: the width of every register and of a memory word (R5 `REG_BITS`, `WORD_BYTES`). -/
abbrev Word := BitVec 24

end Sys2Proof
end

