-- ==== Sys2Proof/Syntax.lean ====
section
/-! DEFINITION. Instructions, mnemonics, register names and the loader's text records, as syntax
(spec/10_state.md R20, spec/20_memory.md R71, spec/30_encoding.md R90 to R96). -/

namespace Sys2Proof

/-- The 27 names of the opcode table: 26 SIC mnemonics and XOS (R96). -/
inductive Mnemonic where
  | lda | ldx | ldl | sta | stx | stl
  | add | sub | mul | div | comp | tix
  | jeq | jgt | jlt | j | and | or
  | jsub | rsub | ldch | stch | rd | wd
  | td | stsw | xos
deriving DecidableEq, Repr

/-- The decoded operand field (R94, R125): the indexed-addressing flag, and the magnitude as the
integer the addressing-mode decoder adds to X. -/
structure Operand where
  indexed : Bool
  magnitude : Nat
deriving DecidableEq, Repr

/-- The instructions: one constructor per row of the opcode table, each with the one operand format
the machine has (R90, R95). -/
inductive Instr where
  | lda (o : Operand)
  | ldx (o : Operand)
  | ldl (o : Operand)
  | sta (o : Operand)
  | stx (o : Operand)
  | stl (o : Operand)
  | add (o : Operand)
  | sub (o : Operand)
  | mul (o : Operand)
  | div (o : Operand)
  | comp (o : Operand)
  | tix (o : Operand)
  | jeq (o : Operand)
  | jgt (o : Operand)
  | jlt (o : Operand)
  | j (o : Operand)
  | and (o : Operand)
  | or (o : Operand)
  | jsub (o : Operand)
  | rsub (o : Operand)
  | ldch (o : Operand)
  | stch (o : Operand)
  | rd (o : Operand)
  | wd (o : Operand)
  | td (o : Operand)
  | stsw (o : Operand)
  | xos (o : Operand)
deriving DecidableEq, Repr

/-- The operand field of an instruction; every instruction has one (R90, R95). -/
@[simp] def Instr.operand : Instr → Operand
  | .lda o | .ldx o | .ldl o | .sta o | .stx o | .stl o
  | .add o | .sub o | .mul o | .div o | .comp o | .tix o
  | .jeq o | .jgt o | .jlt o | .j o | .and o | .or o
  | .jsub o | .rsub o | .ldch o | .stch o | .rd o | .wd o
  | .td o | .stsw o | .xos o => o

/-- The five registers by name (R20). -/
inductive Reg where
  | A | X | L | PC | SW
deriving DecidableEq, Repr

/-- An object-code text record, the loader's input (R71). -/
structure TextRecord where
  startAddress : Nat
  bytes : List Byte
deriving DecidableEq, Repr

end Sys2Proof
end

