-- ==== Sys2Proof/Config.lean ====
section
/-! DEFINITION. The machine's fixed constants and its parameters (spec/00_scope.md R5).

A *fixed* value of R5 is a constant here. A *parameter* of R5 is a field of `Config`, "a
configuration argument" of the model: State carries it, no step changes it, and a statement about
the hardware holds for every value of it that the constraints allow (log 1). -/

namespace Sys2Proof

/-- The number of memory cells, `MEM_SIZE` of R5. -/
abbrev memSize : Nat := 32768

/-- The highest address (R51). -/
abbrev maxAddr : Nat := 32767

/-- What a cell nothing has written reads as, `FILL` of R5 (R38). -/
def fill : Byte := 0xFF#8

/-- The value of every register at construction, `REG_RESET` of R5 (R25). -/
def regReset : Word := 0xFFFFFF#24

/-- The least value of arithmetic on A, `A_MIN` of R5. -/
abbrev aMin : Int := -8388608

/-- The greatest value of arithmetic on A, `A_MAX` of R5. -/
abbrev aMax : Int := 8388607

/-- How TIX reads the two words it compares, `TIX_CMP` of R5. -/
inductive Signedness where
  | unsigned | signed
deriving DecidableEq, Repr

/-- What stands at the device port, `DEVICE` of R5.
`absent` is the configuration the spec fixes (R239); `attached` is the one it refuses by name (R244). -/
inductive DeviceConfig where
  | absent | attached
deriving DecidableEq, Repr

/-- The three condition-code states of SW (R31). -/
inductive Condition where
  | lessThan | equal | greaterThan
deriving DecidableEq, Repr

/-- The parameters of the machine (R5). `optab` is the map from opcode byte to mnemonic, XOS's
entry (`XOS_OPCODE`) among them; the constraints on it and on the three codes are `Config.wf`. -/
structure Config where
  optab : List (Byte × Mnemonic)
  swLt : Word
  swEq : Word
  swGt : Word
  tixCmp : Signedness
  device : DeviceConfig
  idleByte : Byte
deriving DecidableEq, Repr

end Sys2Proof
end

