-- ==== Sys2Proof/Machine/Parameters.lean ====
section
/-! DEFINITION. The default values of the parameters (spec/00_scope.md R5, spec/30_encoding.md R97).
They are the spec's own defaults, not facts of its source: the opcode bytes are PRESUMED (log 2),
XOS's byte is PRESUMED (log 3), the three codes and the signedness of TIX are DESIGN CHOICES of the
spec (log 4, log 5). -/

namespace Sys2Proof.Machine

/-- The default opcode table, in the order of spec/opcode_table.json (R97, R98). -/
def defaultOptab : List (Byte × Mnemonic) :=
  [(0x00#8, .lda), (0x04#8, .ldx), (0x08#8, .ldl), (0x0C#8, .sta), (0x10#8, .stx), (0x14#8, .stl),
   (0x18#8, .add), (0x1C#8, .sub), (0x20#8, .mul), (0x24#8, .div), (0x28#8, .comp),
   (0x2C#8, .tix), (0x30#8, .jeq), (0x34#8, .jgt), (0x38#8, .jlt), (0x3C#8, .j),
   (0x40#8, .and), (0x44#8, .or), (0x48#8, .jsub), (0x4C#8, .rsub), (0x50#8, .ldch),
   (0x54#8, .stch), (0xD8#8, .rd), (0xDC#8, .wd), (0xE0#8, .td), (0xE8#8, .stsw),
   (0xFF#8, .xos)]

/-- The default parameters (R5). -/
def defaultConfig : Config where
  optab := defaultOptab
  swLt := 0x000000#24
  swEq := 0x000040#24
  swGt := 0x000080#24
  tixCmp := .unsigned
  device := .absent
  idleByte := 0x00#8

end Sys2Proof.Machine
end

