-- ==== Sys2Proof/WellFormed.lean ====
section
/-! DEFINITION. Well-formedness of instructions, of the loader's records and of the parameters. -/

namespace Sys2Proof

/-- The magnitude fits the 15 bits of the operand field (R91, R125). -/
abbrev Operand.wf (o : Operand) : Prop := o.magnitude ≤ maxAddr

/-- Every field of the instruction fits its encoding. There is no other condition: the format has
no reserved bit and every instruction takes both operand forms (R95, R100). -/
abbrev Instr.wf (i : Instr) : Prop := i.operand.wf

/-- A record's start address is an address (R71). -/
abbrev TextRecord.wf (r : TextRecord) : Prop := r.startAddress ≤ maxAddr

/-- The 27 mnemonics (R96). -/
def Mnemonic.all : List Mnemonic :=
  [.lda, .ldx, .ldl, .sta, .stx, .stl, .add, .sub, .mul, .div, .comp, .tix, .jeq, .jgt, .jlt, .j,
   .and, .or, .jsub, .rsub, .ldch, .stch, .rd, .wd, .td, .stsw, .xos]

/-- No opcode byte is listed twice: `optab` is a map (R101). -/
abbrev Config.keysDistinct (c : Config) : Prop := (c.optab.map Prod.fst).Nodup

/-- No mnemonic has two bytes: the map is injective (R101). -/
abbrev Config.mnemonicsDistinct (c : Config) : Prop := (c.optab.map Prod.snd).Nodup

/-- Every mnemonic has a byte: the range of the map is the 27 mnemonics (R101). -/
abbrev Config.mnemonicsComplete (c : Config) : Prop :=
  ∀ mn ∈ Mnemonic.all, mn ∈ c.optab.map Prod.snd

/-- The three condition codes are pairwise distinct (R31). -/
abbrev Config.codesDistinct (c : Config) : Prop :=
  c.swLt ≠ c.swEq ∧ c.swLt ≠ c.swGt ∧ c.swEq ≠ c.swGt

/-- None of the three condition codes is the reset value 0xFFFFFF (R31). -/
abbrev Config.codesNotReset (c : Config) : Prop :=
  c.swLt ≠ regReset ∧ c.swEq ≠ regReset ∧ c.swGt ≠ regReset

/-- The constraints the spec puts on the parameters (R5, R31, R101). -/
abbrev Config.wf (c : Config) : Prop :=
  c.keysDistinct ∧ c.mnemonicsDistinct ∧ c.mnemonicsComplete ∧ c.codesDistinct ∧ c.codesNotReset

end Sys2Proof
end

