-- ==== Sys2Proof/Decode.lean ====
section
/-! DEFINITION. The decoder and the encoder (spec/30_encoding.md), for any value of the parameters. -/

namespace Sys2Proof

/-- Why a sequence of bytes is no instruction. -/
inductive DecodeError where
  /-- No byte at all. -/
  | missingOpcode
  /-- The opcode byte is no key of the opcode table (R99). -/
  | unrecognizedOpcode (op : Byte)
  /-- The opcode is known and fewer than two operand bytes follow (R90). -/
  | missingOperand
deriving DecidableEq, Repr

/-- A sequence of bytes as a number, first byte most significant (R56, R57; log 7). -/
def bytesToNat (bs : List Byte) : Nat :=
  bs.foldl (fun acc b => acc * 256 + b.toNat) 0

/-- The opcode table's lookup; all eight bits take part (R93, R123). In a table that lists a byte twice,
which R101 excludes, the first entry counts (log 23). -/
def lookupOpcode (c : Config) (op : Byte) : Option Mnemonic :=
  c.optab.lookup op

/-- The operand field: bit 15 is the indexed flag, bits 14..0 the magnitude (R91, R125). -/
def decodeField (f : BitVec 16) : Operand where
  indexed := f.getLsbD 15
  magnitude := (f.extractLsb' 0 15).toNat

/-- The instruction a mnemonic and an operand make. -/
def Instr.ofMnemonic (mn : Mnemonic) (o : Operand) : Instr :=
  match mn with
  | .lda => .lda o | .ldx => .ldx o | .ldl => .ldl o | .sta => .sta o | .stx => .stx o
  | .stl => .stl o | .add => .add o | .sub => .sub o | .mul => .mul o | .div => .div o
  | .comp => .comp o | .tix => .tix o | .jeq => .jeq o | .jgt => .jgt o | .jlt => .jlt o
  | .j => .j o | .and => .and o | .or => .or o | .jsub => .jsub o | .rsub => .rsub o
  | .ldch => .ldch o | .stch => .stch o | .rd => .rd o | .wd => .wd o | .td => .td o
  | .stsw => .stsw o | .xos => .xos o

/-- Decode the instruction at the front of a byte sequence, and give the rest of it. The lookup
comes before the operand field is looked at (R99, R123). -/
def decode (c : Config) : List Byte → Except DecodeError (Instr × List Byte)
  | [] => .error .missingOpcode
  | op :: rest =>
    match lookupOpcode c op with
    | none => .error (.unrecognizedOpcode op)
    | some mn =>
      match rest with
      | hi :: lo :: rest' =>
        .ok (Instr.ofMnemonic mn (decodeField (BitVec.ofNat 16 (bytesToNat [hi, lo]))), rest')
      | _ => .error .missingOperand

/-- The mnemonic of an instruction. -/
@[simp] def Instr.mnemonic : Instr → Mnemonic
  | .lda _ => .lda | .ldx _ => .ldx | .ldl _ => .ldl | .sta _ => .sta | .stx _ => .stx
  | .stl _ => .stl | .add _ => .add | .sub _ => .sub | .mul _ => .mul | .div _ => .div
  | .comp _ => .comp | .tix _ => .tix | .jeq _ => .jeq | .jgt _ => .jgt | .jlt _ => .jlt
  | .j _ => .j | .and _ => .and | .or _ => .or | .jsub _ => .jsub | .rsub _ => .rsub
  | .ldch _ => .ldch | .stch _ => .stch | .rd _ => .rd | .wd _ => .wd | .td _ => .td
  | .stsw _ => .stsw | .xos _ => .xos

/-- The opcode byte of a mnemonic: the key of its entry in the table, if it has one (R96). -/
def opcodeByte (c : Config) (mn : Mnemonic) : Option Byte :=
  (c.optab.find? fun e => e.2 == mn).map Prod.fst

/-- The operand field of an operand: flag, then 15 bits of magnitude (R91). -/
def encodeField (o : Operand) : BitVec 16 :=
  (BitVec.ofBool o.indexed ++ BitVec.ofNat 15 o.magnitude : BitVec 16)

/-- The three bytes of an instruction at increasing addresses: opcode, high byte and low byte of
the operand field (R57, R91); none where the table lacks the mnemonic, which no table that meets
R101 does. -/
def encode (c : Config) (i : Instr) : Option (List Byte) :=
  (opcodeByte c i.mnemonic).map fun op =>
    [op, (encodeField i.operand).extractLsb' 8 8, (encodeField i.operand).extractLsb' 0 8]

/-- The three bytes, as the hardware stores them, of the 24-bit instruction word `I` of R91 whose
low `nbits` bits are those of `w` and whose other bits are 0. -/
def tableBytes (nbits w : Nat) : List Byte :=
  let word : Word := BitVec.ofNat 24 (w % 2 ^ nbits)
  [word.extractLsb' 16 8, word.extractLsb' 8 8, word.extractLsb' 0 8]

/-- What the decoder reads, under the default parameters, from the instruction whose bits are `w`
in the numbering of spec/opcode_table.json (bit 23 is the top bit of the opcode byte, which is
stored first). -/
def decodeTableWord (nbits w : Nat) : Option Instr :=
  match decode Machine.defaultConfig (tableBytes nbits w) with
  | .ok (i, _) => some i
  | .error _ => none

end Sys2Proof
end

