-- ==== Sys2Proof/Machine/State.lean ====
section
/-! DEFINITION. The state of the machine, the reasons a step stops, and the state after reset
(spec/10_state.md, spec/60_exceptions.md section 1, spec/70_reset_and_hazards.md section 1). -/

namespace Sys2Proof.Machine

/-- Main memory as (address, byte) pairs (R37). An address that is not listed reads `fill` (R38);
the canonical form is `Memory.wf` (Machine/Ops.lean, log 15). -/
abbrev Memory := List Host.Cell

/-- The whole architectural state (R20, R37) and the machine's parameters (R5, log 1). -/
structure State where
  /-- A, the accumulator (R21). -/
  a : Word
  /-- X, the index register (R22). -/
  x : Word
  /-- L, the linkage register (R23). -/
  l : Word
  /-- PC, the program counter (R28). -/
  pc : Word
  /-- SW, the status word (R31). -/
  sw : Word
  /-- Main memory (R37). -/
  mem : Memory
  /-- The machine's parameters, which no step changes: the model's own field (R5, log 1). -/
  cfg : Config
deriving DecidableEq, Repr

/-- The seven reasons of `HALT(reason)`, with their payloads (R260, log 14). -/
inductive HaltReason where
  /-- Raised by XOS in step 5 (R268). "Not an error, a terminal state". Safe: the spec's own end of a run. -/
  | normalHalt
  /-- Raised by step 1 of the cycle, iff PC > 32767; carries PC (R262). Safe: the spec's own fault. -/
  | programCounterFault (pc : Word)
  /-- Raised by step 2, iff the byte at PC is no key of the opcode table; carries the address and
  the byte (R263). Safe: the spec's own fault. -/
  | unrecognizedOpcodeFault (p : Nat) (op : Byte)
  /-- Raised by step 3 (operand field past 32767, effective address above 32767), by a word access
  of step 5 at 32766 or 32767, and by `load`; carries the lowest address out of range (R264).
  Safe: the spec's own fault. -/
  | addressRangeFault (addr : Nat)
  /-- Raised by ADD, SUB, MUL, DIV when the exact result is out of range; carries the mnemonic
  (R265). Safe: the spec's own fault. -/
  | arithmeticRangeFault (mn : Mnemonic)
  /-- Raised by DIV on a zero divisor (R266). Safe: the spec's own fault. -/
  | divisionByZeroFault
  /-- Raised by the host's textual register port, never by a step (R267). Safe: the spec's own fault. -/
  | registerFormatFault
deriving DecidableEq, Repr

/-- How a step stops. -/
inductive Fault where
  /-- `HALT(reason)` of R131, raised by every step that does not return CONTINUE, together with the
  state the step leaves, from which the host may step again (R274). Safe: the spec's own result;
  who raises it is said at each reason (log 13). -/
  | halt (reason : HaltReason) (left : State)
deriving DecidableEq, Repr

/-- What the model refuses to give a meaning. -/
inductive Refusal where
  /-- Raised by an arm of `exec` whose instruction has no meaning yet; no arm does. Safe. -/
  | notModelled (mnemonic : String)
  /-- Raised by RD, WD and TD under the configuration "device attached", which the spec tells a
  model to refuse by name (R244, log 11). Safe: the model stops where such hardware would go on. -/
  | deviceAttached (mn : Mnemonic)
deriving DecidableEq, Repr

/-- What a step answers. -/
abbrev Result := Host.Outcome State Fault Refusal

/-- A freshly constructed context with nothing loaded: every register 0xFFFFFF (R25), every cell
unwritten (R38). -/
def State.fresh (cfg : Config) : State where
  a := regReset
  x := regReset
  l := regReset
  pc := regReset
  sw := regReset
  mem := []
  cfg := cfg

/-- The machine right after reset: a context built from an empty list of records (R300 to R302),
with the default parameters (R5). -/
def State.reset : State := State.fresh defaultConfig

end Sys2Proof.Machine
end

