-- ==== Sys2Proof/Machine/Ops.lean ====
section
/-! DEFINITION. The named operations over registers and memory, the signed readings of a word, and
the one way a step ends in `HALT(reason)` (spec/00_scope.md R8 to R11, spec/20_memory.md). -/

namespace Sys2Proof.Machine

/-! ## Registers -/

/-- The 24-bit value of the named register (R9). -/
def readReg (s : State) : Reg → Word
  | .A => s.a
  | .X => s.x
  | .L => s.l
  | .PC => s.pc
  | .SW => s.sw

/-- Replace the named register; all five are full read-write cells (R9, R20). -/
def writeReg (s : State) (r : Reg) (v : Word) : State :=
  match r with
  | .A => { s with a := v }
  | .X => { s with x := v }
  | .L => { s with l := v }
  | .PC => { s with pc := v }
  | .SW => { s with sw := v }

/-- Replace main memory. -/
def setMem (s : State) (m : Memory) : State := { s with mem := m }

/-! ## Halting: the machine's only exception mechanism -/

/-- End the step with `HALT(reason)` (R11). A halt saves nothing, changes no mode and transfers
control nowhere (R270): the state is left as it stands, PC included. This is the one operation by
which every exceptional condition is taken. -/
def raise (r : HaltReason) (s : State) : Result := .fault (.halt r s)

/-- The state a halted machine goes on from when the host steps it again: the state the halt left
(R274). There is no return instruction and nothing to restore (R273). -/
def resume : Fault → State
  | .halt _ left => left

/-- Go on with the value of a check that passed, or end the step with the reason it failed. -/
def attempt {α : Type} (e : Except HaltReason α) (s : State) (k : α → Result) : Result :=
  match e with
  | .ok v => k v
  | .error r => raise r s

/-! ## Signed readings and the arithmetic range -/

/-- The two's-complement reading of a 24-bit pattern (R8). -/
def sgn24 (v : Word) : Int :=
  if v.toNat < 8388608 then (v.toNat : Int) else (v.toNat : Int) - 16777216

/-- The 24-bit pattern of an integer (R8). -/
def enc24 (n : Int) : Word := BitVec.ofInt 24 n

/-- The range test on the exact result of an arithmetic instruction (R150). -/
abbrev inRange (v : Int) : Prop := aMin ≤ v ∧ v ≤ aMax

/-- Integer division truncating toward zero, by the formula of R154. -/
def quotient (a w : Int) : Int :=
  a.sign * w.sign * ((a.natAbs / w.natAbs : Nat) : Int)

/-! ## Memory -/

/-- The byte at an address; an unlisted one reads `fill` (R52). -/
def Memory.byteAt : Memory → Nat → Byte
  | [], _ => fill
  | (k, b) :: rest, a => if k = a then b else Memory.byteAt rest a

/-- Insert a cell before the first cell of a higher address. -/
def Memory.insertCell (a : Nat) (v : Byte) : Memory → Memory
  | [] => [(a, v)]
  | (k, b) :: rest =>
    if a < k then (a, v) :: (k, b) :: rest else (k, b) :: Memory.insertCell a v rest

/-- Store a byte at an address, keeping the canonical form: the old cell goes, and a new one comes
unless it would read as an unlisted address does (R54). -/
def Memory.store (m : Memory) (a : Nat) (v : Byte) : Memory :=
  let rest := m.filter fun c => c.1 != a
  if v = fill then rest else Memory.insertCell a v rest

/-- The canonical form: addresses strictly rising, all inside 0..32767, and no cell that holds what
an unlisted address reads as (log 15). -/
abbrev Memory.wf (m : Memory) : Prop :=
  m.Pairwise (fun c d => c.1 < d.1) ∧ ∀ c ∈ m, c.1 ≤ maxAddr ∧ c.2 ≠ fill

/-- The lowest address out of range of an access that starts at `a` and leaves memory (R10, R55). -/
def lowestBad (a : Nat) : Nat := max a memSize

/-- `read_byte` (R52). -/
def readByte (m : Memory) (a : Nat) : Except HaltReason Byte :=
  if a ≤ maxAddr then .ok (m.byteAt a) else .error (.addressRangeFault a)

/-- `read_bytes`: all of the range or nothing (R53, R55). -/
def readBytes (m : Memory) (a n : Nat) : Except HaltReason (List Byte) :=
  if a + n ≤ memSize then .ok ((List.range n).map fun i => m.byteAt (a + i))
  else .error (.addressRangeFault (lowestBad a))

/-- The 16-bit operand field at an address, `MemRead(a, 2)` (R57, R124). -/
def readField (m : Memory) (a : Nat) : Except HaltReason (BitVec 16) :=
  (readBytes m a 2).map fun bs => BitVec.ofNat 16 (bytesToNat bs)

/-- The 24-bit word at an address, `MemRead(a, 3)` (R56). -/
def readWord (m : Memory) (a : Nat) : Except HaltReason Word :=
  (readBytes m a 3).map fun bs => BitVec.ofNat 24 (bytesToNat bs)

/-- `write_byte` (R54). -/
def writeByte (m : Memory) (a : Nat) (v : Byte) : Except HaltReason Memory :=
  if a ≤ maxAddr then .ok (m.store a v) else .error (.addressRangeFault a)

/-- Store bytes at increasing addresses. -/
def Memory.storeAll (m : Memory) (a : Nat) : List Byte → Memory
  | [] => m
  | b :: bs => Memory.storeAll (m.store a b) (a + 1) bs

/-- The three bytes of a word, most significant first (R56). -/
def wordBytes (v : Word) : List Byte :=
  [v.extractLsb' 16 8, v.extractLsb' 8 8, v.extractLsb' 0 8]

/-- `MemWrite(a, 3, v)`: all three bytes or none (R55, R56, log 10). -/
def writeWord (m : Memory) (a : Nat) (v : Word) : Except HaltReason Memory :=
  if a + 3 ≤ memSize then .ok (m.storeAll a (wordBytes v))
  else .error (.addressRangeFault (lowestBad a))

/-! ## Steps 1 to 3 of the cycle: fetching an instruction -/

/-- Check PC, fetch and look up the opcode byte, fetch and split the operand field, in that order
(R121 to R125). It changes nothing; the effective address is the instruction's own first act
(`withOperand`, Machine/Operands.lean). -/
def fetch (s : State) : Except HaltReason Instr :=
  let p := s.pc.toNat
  if p > maxAddr then .error (.programCounterFault s.pc)
  else
    match readByte s.mem p with
    | .error r => .error r
    | .ok op =>
      match lookupOpcode s.cfg op with
      | none => .error (.unrecognizedOpcodeFault p op)
      | some mn =>
        match readField s.mem (p + 1) with
        | .error r => .error r
        | .ok f => .ok (Instr.ofMnemonic mn (decodeField f))

end Sys2Proof.Machine
end

