-- ==== Sys2Proof/Machine/Flags.lean ====
section
/-! DEFINITION. The condition code: how a comparison sets SW and how a conditional jump reads it
(spec/10_state.md R31 to R34). -/

namespace Sys2Proof.Machine

/-- The condition a comparison of two integers gives. -/
def compareInts (l r : Int) : Condition :=
  if l < r then .lessThan else if l = r then .equal else .greaterThan

/-- The 24-bit code of a condition: `SW_LT`, `SW_EQ`, `SW_GT` (R31). -/
def conditionCode (c : Config) : Condition → Word
  | .lessThan => c.swLt
  | .equal => c.swEq
  | .greaterThan => c.swGt

/-- The condition holds: SW equals its code, all 24 bits (R33). A value that is no code satisfies
no condition (R34, log 8). -/
abbrev conditionHolds (c : Condition) (s : State) : Prop := readReg s .SW = conditionCode s.cfg c

/-- Write the condition of a comparison to SW, all 24 bits (R32). -/
def setCondition (c : Condition) (s : State) : State := writeReg s .SW (conditionCode s.cfg c)

/-- How TIX reads the words it compares (R216, log 5). -/
def readAs : Signedness → Word → Int
  | .unsigned, v => (v.toNat : Int)
  | .signed, v => sgn24 v

end Sys2Proof.Machine
end

