-- ==== Sys2Proof/Machine/Operands.lean ====
section
/-! DEFINITION. The addressing-mode decoder, the PC advance, and the operand accesses every
instruction is built from (spec/40_step_cycle.md R126 to R130). -/

namespace Sys2Proof.Machine

/-- The effective address: the magnitude, plus X read unsigned if the flag is set; an integer sum
that never wraps (R126, log 12). -/
def effectiveAddress (o : Operand) (s : State) : Nat :=
  if o.indexed then o.magnitude + s.x.toNat else o.magnitude

/-- Step 4: PC is advanced by the instruction width (R127). The 24-bit sum wraps only in states no step
reaches (R30, log 20). -/
def advance (s : State) : State := writeReg s .PC (s.pc + 3#24)

/-- Steps 3 and 4, the same for every instruction (R128, log 9): compute and check the effective
address, advance PC, and go on with both. -/
def withOperand (o : Operand) (s : State) (k : Nat → State → Result) : Result :=
  let m := effectiveAddress o s
  if m > maxAddr then raise (.addressRangeFault m) s else k m (advance s)

/-- Go on with the word at the effective address; the read comes before anything is written
(R130, log 10). -/
def withWord (o : Operand) (s : State) (k : Word → State → Result) : Result :=
  withOperand o s fun m s1 => attempt (readWord s1.mem m) s1 fun w => k w s1

/-- Load the word at the effective address into a register, all 24 bits (R180 to R182). -/
def loadWord (r : Reg) (o : Operand) (s : State) : Result :=
  withWord o s fun w s1 => .next (writeReg s1 r w)

/-- Store a register's 24 bits at the effective address (R184 to R187). -/
def storeWord (r : Reg) (o : Operand) (s : State) : Result :=
  withOperand o s fun m s1 =>
    attempt (writeWord s1.mem m (readReg s1 r)) s1 fun mem => .next (setMem s1 mem)

/-- Check the exact result of an arithmetic instruction, then commit it to A (R150). -/
def commitA (mn : Mnemonic) (v : Int) (s : State) : Result :=
  if inRange v then .next (writeReg s .A (enc24 v)) else raise (.arithmeticRangeFault mn) s

end Sys2Proof.Machine
end

