-- ==== Sys2Proof/Machine/Alu.lean ====
section
/-! DEFINITION. Arithmetic, logic and compare (spec/41_arithmetic_logic_compare.md). -/

namespace Sys2Proof.Machine

/-- ADD: A ← (A) + word, signed, range-checked (R150, R151). -/
def execAdd (o : Operand) (s : State) : Result :=
  withWord o s fun w s1 => commitA .add (sgn24 (readReg s1 .A) + sgn24 w) s1

/-- SUB: A ← (A) − word, signed, range-checked (R150, R152). -/
def execSub (o : Operand) (s : State) : Result :=
  withWord o s fun w s1 => commitA .sub (sgn24 (readReg s1 .A) - sgn24 w) s1

/-- MUL: A ← (A) × word, signed, range-checked (R150, R153). -/
def execMul (o : Operand) (s : State) : Result :=
  withWord o s fun w s1 => commitA .mul (sgn24 (readReg s1 .A) * sgn24 w) s1

/-- DIV: A ← (A) ÷ word toward zero; the zero divisor is tested before the range (R150, R154). -/
def execDiv (o : Operand) (s : State) : Result :=
  withWord o s fun w s1 =>
    if sgn24 w = 0 then raise .divisionByZeroFault s1
    else commitA .div (quotient (sgn24 (readReg s1 .A)) (sgn24 w)) s1

/-- AND: A ← (A) bitwise-AND word (R155). -/
def execAnd (o : Operand) (s : State) : Result :=
  withWord o s fun w s1 => .next (writeReg s1 .A (readReg s1 .A &&& w))

/-- OR: A ← (A) bitwise-OR word (R156). -/
def execOr (o : Operand) (s : State) : Result :=
  withWord o s fun w s1 => .next (writeReg s1 .A (readReg s1 .A ||| w))

/-- COMP: set SW by the signed comparison of A with the word (R157, log 6). -/
def execComp (o : Operand) (s : State) : Result :=
  withWord o s fun w s1 =>
    .next (setCondition (compareInts (sgn24 (readReg s1 .A)) (sgn24 w)) s1)

end Sys2Proof.Machine
end

