-- ==== Sys2Proof/Machine/Control.lean ====
section
/-! DEFINITION. Jumps, subroutine linkage and the index instruction
(spec/43_jump_subroutine_index.md). PC is already advanced when these write it (R127, R209). -/

namespace Sys2Proof.Machine

/-- PC ← m iff the condition holds; else PC keeps its advanced value (R211 to R213). -/
def jumpIf (c : Condition) (o : Operand) (s : State) : Result :=
  withOperand o s fun m s1 =>
    .next (if conditionHolds c s1 then writeReg s1 .PC (BitVec.ofNat 24 m) else s1)

/-- J: PC ← m (R210). -/
def execJ (o : Operand) (s : State) : Result :=
  withOperand o s fun m s1 => .next (writeReg s1 .PC (BitVec.ofNat 24 m))

/-- JEQ (R211). -/
def execJeq (o : Operand) (s : State) : Result := jumpIf .equal o s

/-- JGT (R212). -/
def execJgt (o : Operand) (s : State) : Result := jumpIf .greaterThan o s

/-- JLT (R213). -/
def execJlt (o : Operand) (s : State) : Result := jumpIf .lessThan o s

/-- JSUB: L ← the advanced PC; PC ← m (R214). -/
def execJsub (o : Operand) (s : State) : Result :=
  withOperand o s fun m s1 =>
    .next (writeReg (writeReg s1 .L (readReg s1 .PC)) .PC (BitVec.ofNat 24 m))

/-- RSUB: PC ← (L), all 24 bits, unchecked (R215). -/
def execRsub (o : Operand) (s : State) : Result :=
  withOperand o s fun _ s1 => .next (writeReg s1 .PC (readReg s1 .L))

/-- TIX: X ← (X) + 1, wrapping; set SW by the comparison of the new X with the word, both read as
`TIX_CMP` says (R216, log 5). -/
def execTix (o : Operand) (s : State) : Result :=
  withWord o s fun w s1 =>
    let n := readReg s1 .X + 1#24
    .next (setCondition (compareInts (readAs s1.cfg.tixCmp n) (readAs s1.cfg.tixCmp w))
      (writeReg s1 .X n))

end Sys2Proof.Machine
end

