-- ==== Sys2Proof/Machine/Device.lean ====
section
/-! DEFINITION. The device port with nothing attached, the device instructions, and the halt
(spec/44_device_and_halt.md, spec/60_exceptions.md R278, R279). -/

namespace Sys2Proof.Machine

/-- The answer of a device test (R239). -/
inductive DeviceStatus where
  | ready | notReady
deriving DecidableEq, Repr

/-- `read(channel)` of the absent device: a fixed idle byte (R279). -/
def absentRead (c : Config) (_channel : Nat) : Byte := c.idleByte

/-- `write(channel, byte)` of the absent device does nothing (R279). -/
def absentWrite (_channel : Nat) (_byte : Byte) (s : State) : State := s

/-- `test(channel)` of the absent device: always not ready (R279). -/
def absentTest (_channel : Nat) : DeviceStatus := .notReady

/-- A device instruction: with no device attached, go on with the channel number m; with one
attached, refuse by name (R239, R244, log 11). -/
def withAbsentDevice (mn : Mnemonic) (o : Operand) (s : State) (k : Nat → State → Result) : Result :=
  withOperand o s fun m s1 =>
    match s1.cfg.device with
    | .absent => k m s1
    | .attached => .refused (.deviceAttached mn)

/-- RD: the absent device's byte is discarded; nothing changes but PC (R240). -/
def execRd (o : Operand) (s : State) : Result :=
  withAbsentDevice .rd o s fun m s1 =>
    let _discarded := absentRead s1.cfg m
    .next s1

/-- WD: the absent device does nothing with the byte, whichever it is (R241). -/
def execWd (o : Operand) (s : State) : Result :=
  withAbsentDevice .wd o s fun m s1 => .next (absentWrite m s1.cfg.idleByte s1)

/-- TD: the absent device's answer is discarded; SW is not written (R242). -/
def execTd (o : Operand) (s : State) : Result :=
  withAbsentDevice .td o s fun m s1 =>
    let _discarded := absentTest m
    .next s1

/-- XOS: halt normally; step 5 writes nothing, and PC stays advanced (R243, log 9). -/
def execXos (o : Operand) (s : State) : Result :=
  withOperand o s fun _ s1 => raise .normalHalt s1

end Sys2Proof.Machine
end

