-- ==== Sys2Proof/Machine/LoadStore.lean ====
section
/-! DEFINITION. Loads and stores (spec/42_load_store.md). -/

namespace Sys2Proof.Machine

/-- LDA: A ← word (R180). -/
def execLda (o : Operand) (s : State) : Result := loadWord .A o s

/-- LDX: X ← word; the address uses the old X (R182). -/
def execLdx (o : Operand) (s : State) : Result := loadWord .X o s

/-- LDL: L ← word (R181). -/
def execLdl (o : Operand) (s : State) : Result := loadWord .L o s

/-- LDCH: the rightmost byte of A ← the byte at m; the upper 16 bits stay (R183). -/
def execLdch (o : Operand) (s : State) : Result :=
  withOperand o s fun m s1 =>
    attempt (readByte s1.mem m) s1 fun b =>
      .next (writeReg s1 .A ((readReg s1 .A).extractLsb' 8 16 ++ b : BitVec 24))

/-- STA: memory[m..m+2] ← (A) (R184). -/
def execSta (o : Operand) (s : State) : Result := storeWord .A o s

/-- STL: memory[m..m+2] ← (L) (R185). -/
def execStl (o : Operand) (s : State) : Result := storeWord .L o s

/-- STX: memory[m..m+2] ← (X) (R186). -/
def execStx (o : Operand) (s : State) : Result := storeWord .X o s

/-- STSW: memory[m..m+2] ← (SW) (R187). -/
def execStsw (o : Operand) (s : State) : Result := storeWord .SW o s

/-- STCH: memory[m] ← the rightmost byte of A (R188). -/
def execStch (o : Operand) (s : State) : Result :=
  withOperand o s fun m s1 =>
    attempt (writeByte s1.mem m ((readReg s1 .A).extractLsb' 0 8)) s1 fun mem =>
      .next (setMem s1 mem)

end Sys2Proof.Machine
end

