-- ==== Sys2Proof/Machine/Dispatch.lean ====
section
/-! DEFINITION. One arm per instruction: step 5's dispatch, exhaustive over the 27 (spec/40_step_cycle.md R129). -/

namespace Sys2Proof.Machine

def exec (i : Instr) (s : State) : Host.Outcome State Fault Refusal :=
  match i with
  | .lda o => Sys2Proof.Machine.execLda o s
  | .ldx o => Sys2Proof.Machine.execLdx o s
  | .ldl o => Sys2Proof.Machine.execLdl o s
  | .sta o => Sys2Proof.Machine.execSta o s
  | .stx o => Sys2Proof.Machine.execStx o s
  | .stl o => Sys2Proof.Machine.execStl o s
  | .add o => Sys2Proof.Machine.execAdd o s
  | .sub o => Sys2Proof.Machine.execSub o s
  | .mul o => Sys2Proof.Machine.execMul o s
  | .div o => Sys2Proof.Machine.execDiv o s
  | .comp o => Sys2Proof.Machine.execComp o s
  | .tix o => Sys2Proof.Machine.execTix o s
  | .jeq o => Sys2Proof.Machine.execJeq o s
  | .jgt o => Sys2Proof.Machine.execJgt o s
  | .jlt o => Sys2Proof.Machine.execJlt o s
  | .j o => Sys2Proof.Machine.execJ o s
  | .and o => Sys2Proof.Machine.execAnd o s
  | .or o => Sys2Proof.Machine.execOr o s
  | .jsub o => Sys2Proof.Machine.execJsub o s
  | .rsub o => Sys2Proof.Machine.execRsub o s
  | .ldch o => Sys2Proof.Machine.execLdch o s
  | .stch o => Sys2Proof.Machine.execStch o s
  | .rd o => Sys2Proof.Machine.execRd o s
  | .wd o => Sys2Proof.Machine.execWd o s
  | .td o => Sys2Proof.Machine.execTd o s
  | .stsw o => Sys2Proof.Machine.execStsw o s
  | .xos o => Sys2Proof.Machine.execXos o s

end Sys2Proof.Machine
end

