-- ==== Sys2Proof/Machine/Step.lean ====
section
/-! DEFINITION. One step of the machine, and placing an instruction where it fetches next
(spec/40_step_cycle.md R120). -/

namespace Sys2Proof.Machine

/-- One fetch-decode-execute cycle (R120): `.next` is CONTINUE, `.fault (.halt reason left)` is
HALT(reason) with the state the step leaves (R131, log 13). A step is a function of the context
alone (R132). -/
def step (s : State) : Host.Outcome State Fault Refusal :=
  attempt (fetch s) s fun i => exec i s

/-- `s` with the instruction whose bits are `w` (numbered as spec/opcode_table.json numbers them)
stored where `step` fetches next, as the host's `load` would place it (R72). Where PC leaves no room
for a whole instruction, as at reset, the host's write of PC (R306) is made too: PC ← 0 (log 16). -/
def State.withFetchWord (s : State) (nbits w : Nat) : State :=
  let s1 := if s.pc.toNat + 3 ≤ memSize then s else writeReg s .PC 0#24
  setMem s1 (s1.mem.storeAll s1.pc.toNat (tableBytes nbits w))

end Sys2Proof.Machine
end

