-- ==== Sys2Proof/Machine/HostPort.lean ====
section
/-! DEFINITION. The host port beside `step`: the loader, the register port with its textual views,
memory writes between steps, the dumps' contents and the result codes (spec/10_state.md R24,
spec/20_memory.md R71 to R75, spec/60_exceptions.md R260, spec/70_reset_and_hazards.md R308 to R311). -/

namespace Sys2Proof.Machine

/-! ## The loader -/

/-- Write bytes at increasing addresses, by `write_byte` (R72). -/
def loadBytes (m : Memory) (a : Nat) : List Byte → Except HaltReason Memory
  | [] => .ok m
  | b :: bs =>
    match writeByte m a b with
    | .ok m' => loadBytes m' (a + 1) bs
    | .error r => .error r

/-- Apply records in the order given; the last writer wins (R72, R74). -/
def loadRecords (m : Memory) : List TextRecord → Except HaltReason Memory
  | [] => .ok m
  | r :: rs =>
    match loadBytes m r.startAddress r.bytes with
    | .ok m' => loadRecords m' rs
    | .error e => .error e

/-- `load(records)`: a fresh context with the records in memory, or the fault and no context
(R72, R73, R300). -/
def load (cfg : Config) (records : List TextRecord) : Except HaltReason State :=
  (loadRecords [] records).map fun m => setMem (State.fresh cfg) m

/-! ## Between steps: registers and memory -/

/-- The host reads a register's value (R24). -/
def hostReadReg (s : State) (r : Reg) : Word := readReg s r

/-- The host replaces a register by any 24-bit value (R24). -/
def hostWriteReg (s : State) (r : Reg) (v : Word) : State := writeReg s r v

/-- The host changes a byte of memory (R309). -/
def hostWriteByte (s : State) (a : Nat) (v : Byte) : Except HaltReason State :=
  (writeByte s.mem a v).map fun m => setMem s m

/-- The value of a hexadecimal digit, either case (R24). -/
def hexDigitValue (c : Char) : Option Nat :=
  if '0'.toNat ≤ c.toNat ∧ c.toNat ≤ '9'.toNat then some (c.toNat - '0'.toNat)
  else if 'A'.toNat ≤ c.toNat ∧ c.toNat ≤ 'F'.toNat then some (c.toNat - 'A'.toNat + 10)
  else if 'a'.toNat ≤ c.toNat ∧ c.toNat ≤ 'f'.toNat then some (c.toNat - 'a'.toNat + 10)
  else none

/-- The value of a binary digit (R24). -/
def binDigitValue (c : Char) : Option Nat :=
  if c = '0' then some 0 else if c = '1' then some 1 else none

/-- The number a string of digits stands for, leftmost digit most significant; none if some
character is no digit. -/
def digitsValue (base : Nat) (digit : Char → Option Nat) (cs : List Char) : Option Nat :=
  cs.foldl (fun acc c => acc.bind fun n => (digit c).map fun d => n * base + d) (some 0)

/-- Set a register from text of an exact length, or `RegisterFormatFault` with no register changed
(R24, R267, log 18). -/
def setFromDigits (base len : Nat) (digit : Char → Option Nat) (s : State) (r : Reg)
    (cs : List Char) : Except HaltReason State :=
  if cs.length = len then
    match digitsValue base digit cs with
    | some n => .ok (writeReg s r (BitVec.ofNat 24 n))
    | none => .error .registerFormatFault
  else .error .registerFormatFault

/-- `set_from_hex`: exactly 6 hexadecimal digits (R24). -/
def setFromHex (s : State) (r : Reg) (cs : List Char) : Except HaltReason State :=
  setFromDigits 16 6 hexDigitValue s r cs

/-- `set_from_binary`: exactly 24 binary digits (R24). -/
def setFromBinary (s : State) (r : Reg) (cs : List Char) : Except HaltReason State :=
  setFromDigits 2 24 binDigitValue s r cs

/-- The upper-case digit of a value below 16. -/
def hexDigit (n : Nat) : Char :=
  if n < 10 then Char.ofNat ('0'.toNat + n) else Char.ofNat ('A'.toNat + (n - 10))

/-- A number as `len` digits, most significant first. -/
def toDigits (base len n : Nat) : List Char :=
  (List.range len).map fun i => hexDigit (n / base ^ (len - 1 - i) % base)

/-- `as_hex`: the 6-digit view of a register (R24). -/
def asHex (v : Word) : List Char := toDigits 16 6 v.toNat

/-- `as_binary`: the 24-digit view of a register (R24). -/
def asBinary (v : Word) : List Char := toDigits 2 24 v.toNat

/-! ## Dumps: their contents, without the separators no file gives, and with the register lines in an
order of the model's choice (N25, log 19) -/

/-- A list cut into pieces of `n`, `count` of them. -/
def pieces {α : Type} (n count : Nat) (xs : List α) : List (List α) :=
  (List.range count).map fun i => (xs.drop (i * n)).take n

/-- One line of the register dump: the name in width 2, the hexadecimal digits in pairs, the binary
digits in nibbles, two to a byte (R310). -/
structure RegisterLine where
  name : List Char
  hexPairs : List (List Char)
  nibblesByByte : List (List (List Char))
deriving DecidableEq, Repr

/-- A register's name, right-justified to width 2 (R310). -/
def regName : Reg → List Char
  | .A => [' ', 'A']
  | .X => [' ', 'X']
  | .L => [' ', 'L']
  | .PC => ['P', 'C']
  | .SW => ['S', 'W']

/-- `dump_registers`, one line per register (R310). It reads the state and changes nothing. DESIGN CHOICE
(log 19): the order of the five lines, which R310 and N25 say is not given, is A, X, L, PC, SW, the order
in which R20 names the registers. -/
def dumpRegisters (s : State) : List RegisterLine :=
  [Reg.A, Reg.X, Reg.L, Reg.PC, Reg.SW].map fun r =>
    { name := regName r
      hexPairs := pieces 2 3 (asHex (readReg s r))
      nibblesByByte := (pieces 8 3 (asBinary (readReg s r))).map (pieces 4 2) }

/-- One row of the memory dump: the base address in 4 digits, then 16 bytes of 2 digits each in
clusters of 4 (R311). -/
structure MemoryRow where
  base : List Char
  clusters : List (List (List Char))
deriving DecidableEq, Repr

/-- The row of the memory dump at a base address; an unwritten cell shows FF (R75, R311). -/
def dumpRow (m : Memory) (base : Nat) : MemoryRow where
  base := toDigits 16 4 base
  clusters := pieces 4 4 ((List.range 16).map fun i => toDigits 16 2 (m.byteAt (base + i)).toNat)

/-- `dump_memory`: 2048 rows of 16 bytes (R311). It reads the state and changes nothing. -/
def dumpMemory (s : State) : List MemoryRow :=
  (List.range 2048).map fun i => dumpRow s.mem (16 * i)

/-! ## Result codes -/

/-- The numeric code of a reason on the result port (R260, log 14). -/
def haltCode : HaltReason → Nat
  | .normalHalt => 1
  | .programCounterFault _ => 2
  | .unrecognizedOpcodeFault _ _ => 3
  | .addressRangeFault _ => 4
  | .arithmeticRangeFault _ => 5
  | .divisionByZeroFault => 6
  | .registerFormatFault => 7

/-- The numeric code of a step's result: 0 is CONTINUE; a refusal is the model's own and has none (R260). -/
def resultCode : Result → Option Nat
  | .next _ => some 0
  | .fault (.halt r _) => some (haltCode r)
  | .refused _ => none

end Sys2Proof.Machine
end

