-- ==== Sys2Proof/Safety.lean ====
section
/-! DEFINITION. What a run is, how it ends, and the invariants claims are stated with
(spec/44_device_and_halt.md R245, spec/60_exceptions.md R271, spec/70_reset_and_hazards.md R315). -/

namespace Sys2Proof.Machine

/-- The word at an address as R56 writes it: the byte at the lowest address is the most significant. -/
def wordAt (m : Memory) (a : Nat) : Word :=
  (m.byteAt a ++ m.byteAt (a + 1) ++ m.byteAt (a + 2) : BitVec 24)

/-- The state of a step that returned CONTINUE. -/
def next? : Result → Option State
  | .next s => some s
  | _ => none

/-- The reason and the state left of a step that returned HALT (R131). -/
def halt? : Result → Option (HaltReason × State)
  | .fault (.halt r left) => some (r, left)
  | _ => none

/-- The state a step leaves in either case, from which the host may step again (R131, R274). -/
def stateAfter? : Result → Option State
  | .next s => some s
  | .fault f => some (resume f)
  | .refused _ => none

/-- A run from `s` ends with a reason, leaving a state: the first step that halts ends it (R245). -/
inductive RunEnds : State → HaltReason → State → Prop where
  | halts {s : State} {r : HaltReason} {left : State} :
      step s = .fault (.halt r left) → RunEnds s r left
  | continues {s s' : State} {r : HaltReason} {left : State} :
      step s = .next s' → RunEnds s' r left → RunEnds s r left

/-- A safe run: it ends with `NormalHalt` (R245, R315). -/
def EndsNormally (s left : State) : Prop := RunEnds s .normalHalt left

/-- SW holds one of the three condition codes (R31). -/
def swIsCode (s : State) : Prop := s.sw = s.cfg.swLt ∨ s.sw = s.cfg.swEq ∨ s.sw = s.cfg.swGt

/-- What every context keeps while the host writes neither memory out of form nor SW: memory is in
canonical form, the parameters meet their constraints, and SW is as it was built or holds a
condition code (R25, R31, R32, R101). -/
structure Inv (s : State) : Prop where
  mem : s.mem.wf
  cfg : s.cfg.wf
  sw : s.sw = regReset ∨ swIsCode s

end Sys2Proof.Machine
end

