-- ==== Sys2Proof/Certificates/Slice0/Obligations.lean ====
section
/-! DEFINITION. The statements for the provers, each with the rule of spec/ it formalises. A statement that
rests on a decision of the spec (D<n> of spec/92_eei_decisions.md) or on a log entry says so. Every
statement about an instruction holds for both operand forms, through `effectiveAddress`. Everywhere below a
word in memory is `wordAt`, big-endian by the spec's D3 (log 7), a halt is the outcome of log 13, and the
payload of a reason is that of R260, the spec's D14 and D26 (log 14, DESIGN CHOICE). -/

open Sys2Proof Sys2Proof.Machine

namespace Sys2Proof.Claims

/-- The record writes a byte at the address. -/
def covers (r : TextRecord) (a : Nat) : Prop :=
  r.startAddress ≤ a ∧ a < r.startAddress + r.bytes.length

/-- The state a completed step 4 and nothing else leaves. -/
def pcAdvanced (s : State) : State := { s with pc := s.pc + 3#24 }

/-- The instructions that read a word at the effective address (R60). -/
def wordReaders : List Mnemonic :=
  [.add, .sub, .mul, .div, .and, .or, .comp, .lda, .ldl, .ldx, .tix]

/-- The instructions that write a word at the effective address (R60). -/
def wordWriters : List Mnemonic := [.sta, .stl, .stx, .stsw]

/-- The state with another value for the parameter `IDLE_BYTE`. -/
def withIdleByte (b : Byte) (s : State) : State := { s with cfg := { s.cfg with idleByte := b } }

/-- A result with its state changed. -/
def mapState (f : State → State) : Result → Result
  | .next s => .next (f s)
  | .fault (.halt r left) => .fault (.halt r (f left))
  | .refused r => .refused r

end Sys2Proof.Claims

open Sys2Proof.Claims

/-! ## Reset, the loader, memory -/

/-- R25: every register holds 0xFFFFFF after construction, whatever records were loaded. -/
def Obligations.ConstructionSetsEveryRegisterToAllOnes : Prop :=
  (∀ r : Reg, readReg State.reset r = 0xFFFFFF#24) ∧
  ∀ (cfg : Config) (records : List TextRecord) (s : State), load cfg records = .ok s →
    ∀ r : Reg, readReg s r = 0xFFFFFF#24

/-- R38: a cell no record covers reads 0xFF in a freshly loaded context. -/
def Obligations.UncoveredCellsReadAllOnes : Prop :=
  ∀ (cfg : Config) (records : List TextRecord) (s : State) (a : Nat),
    load cfg records = .ok s → a ≤ 32767 → (∀ r ∈ records, ¬ covers r a) →
    readByte s.mem a = .ok 0xFF#8

/-- R74: records are applied in order and the last writer of a cell wins; with the rule's example. -/
def Obligations.LastRecordCoveringAnAddressWins : Prop :=
  (∀ (cfg : Config) (earlier later : List TextRecord) (r : TextRecord) (s : State) (i : Nat)
      (b : Byte),
    load cfg (earlier ++ r :: later) = .ok s → r.bytes[i]? = some b →
    (∀ q ∈ later, ¬ covers q (r.startAddress + i)) →
    readByte s.mem (r.startAddress + i) = .ok b) ∧
  ∀ cfg : Config, ∃ s, load cfg [⟨0x1000, [0xAA#8, 0xBB#8, 0xCC#8]⟩, ⟨0x1002, [0xFF#8]⟩] = .ok s ∧
    readByte s.mem 0x1000 = .ok 0xAA#8 ∧ readByte s.mem 0x1001 = .ok 0xBB#8 ∧
    readByte s.mem 0x1002 = .ok 0xFF#8

/-- R73: `load` gives a context iff no record runs past 32767, else `AddressRangeFault(32768)`; and
for a record whose start address is itself out of range, what R73 reads from the memory's contract
(the spec's D19 and N27, log 21). The payloads are the spec's D14 and D26 (log 14). -/
def Obligations.LoadFailsExactlyPastTheLastAddress : Prop :=
  (∀ (cfg : Config) (records : List TextRecord), (∀ r ∈ records, r.wf) →
    (((∀ r ∈ records, r.startAddress + r.bytes.length ≤ 32768) → ∃ s, load cfg records = .ok s) ∧
     ((∃ r ∈ records, 32768 < r.startAddress + r.bytes.length) →
        load cfg records = .error (.addressRangeFault 32768)))) ∧
  ∀ (cfg : Config) (a : Nat) (b : Byte) (bs : List Byte), 32767 < a →
    load cfg [⟨a, b :: bs⟩] = .error (.addressRangeFault a) ∧
    load cfg [⟨a, []⟩] = .ok (State.fresh cfg)

/-- R54: `write_byte` fails out of range; in range a read of the address gives the value written and
every other cell reads as before. -/
def Obligations.WriteByteThenReadByte : Prop :=
  ∀ (m : Memory) (a : Nat) (v : Byte),
    (32767 < a → ∃ x, writeByte m a v = .error (.addressRangeFault x)) ∧
    (a ≤ 32767 → ∃ m', writeByte m a v = .ok m' ∧ readByte m' a = .ok v ∧
      ∀ b, b ≠ a → readByte m' b = readByte m b)

/-- R53: `read_bytes` is the concatenation of `read_byte`s, and fails if any byte is out of bounds. -/
def Obligations.ReadBytesConcatenatesReadByte : Prop :=
  ∀ (m : Memory) (a n : Nat), 0 < n →
    (a + n ≤ 32768 → ∃ bs, readBytes m a n = .ok bs ∧ bs.length = n ∧
      ∀ i, i < n → ∃ b, bs[i]? = some b ∧ readByte m (a + i) = .ok b) ∧
    (32768 < a + n → ∃ x, readBytes m a n = .error (.addressRangeFault x))

/-- R10, R55, R56 (the spec's D3, D10, D26; log 7, log 10, log 14): words are big-endian; a word
access is done whole or not at all, and a failing one reports the lowest address out of range. -/
def Obligations.WordAccessesAreBigEndianAndAllOrNothing : Prop :=
  ∀ (m : Memory) (a : Nat) (v : Word),
    (a ≤ 32765 →
      readWord m a = .ok (m.byteAt a ++ m.byteAt (a + 1) ++ m.byteAt (a + 2) : BitVec 24) ∧
      ∃ m', writeWord m a v = .ok m' ∧ readWord m' a = .ok v ∧
        m'.byteAt a = v.extractLsb' 16 8 ∧ m'.byteAt (a + 1) = v.extractLsb' 8 8 ∧
        m'.byteAt (a + 2) = v.extractLsb' 0 8 ∧
        ∀ b, b < a ∨ a + 3 ≤ b → m'.byteAt b = m.byteAt b) ∧
    (32765 < a →
      readWord m a = .error (.addressRangeFault (max a 32768)) ∧
      writeWord m a v = .error (.addressRangeFault (max a 32768)))

/-- The canonical form is canonical (log 15): two memories that read the same everywhere are the same
data, so nothing beside the 32768 bytes of R37 is kept (R39). -/
def Obligations.MemoriesThatReadAlikeAreEqual : Prop :=
  ∀ m m' : Memory, m.wf → m'.wf → (∀ a, a ≤ 32767 → readByte m a = readByte m' a) → m = m'

/-- R8: the two's-complement reading and its encoding are inverse to each other. -/
def Obligations.SignedReadingAndEncodingAreInverse : Prop :=
  (∀ v : Word, enc24 (sgn24 v) = v ∧ -8388608 ≤ sgn24 v ∧ sgn24 v ≤ 8388607) ∧
  ∀ n : Int, -8388608 ≤ n → n ≤ 8388607 →
    sgn24 (enc24 n) = n ∧ ((enc24 n).toNat : Int) = n % 16777216

/-! ## Encoding -/

/-- R57 (the spec's D3, log 7), R91, R94, R101: for every opcode table the constraints allow, a well-formed
instruction is encoded in three bytes, and decoding them, whatever follows, gives the instruction back. -/
def Obligations.DecodeOfEncodeIsTheInstruction : Prop :=
  ∀ (c : Config) (i : Instr) (rest : List Byte), c.wf → i.wf →
    ∃ bs, encode c i = some bs ∧ bs.length = 3 ∧ decode c (bs ++ rest) = .ok (i, rest)

/-- R57 (the spec's D3, log 7), R91, R94, R100: what the decoder accepts is well-formed and encodes to the
very bytes it was read from: no bit of the 24 is dropped. -/
def Obligations.EncodeOfDecodeIsTheBytes : Prop :=
  ∀ (c : Config) (b0 b1 b2 : Byte) (rest rest' : List Byte) (i : Instr), c.wf →
    decode c (b0 :: b1 :: b2 :: rest) = .ok (i, rest') →
    i.wf ∧ rest' = rest ∧ encode c i = some [b0, b1, b2]

/-- R99, R101: whatever table the constraints allow, 229 of the 256 byte values are illegal. -/
def Obligations.IllegalOpcodeBytesNumber229 : Prop :=
  ∀ c : Config, c.wf →
    ((List.range 256).filter fun n => (lookupOpcode c (BitVec.ofNat 8 n)).isNone).length = 229

/-- R91, R97, R99 on single words of the default table (the spec's D1, D2; log 2, log 3). -/
def Obligations.DefaultTableWordsDecode : Prop :=
  decodeTableWord 24 0x001000 = some (.lda ⟨false, 0x1000⟩) ∧
  decodeTableWord 24 0x548140 = some (.stch ⟨true, 0x0140⟩) ∧
  decodeTableWord 24 0x188FFE = some (.add ⟨true, 0x0FFE⟩) ∧
  decodeTableWord 24 0x347FFF = some (.jgt ⟨false, 0x7FFF⟩) ∧
  decodeTableWord 24 0x4C0000 = some (.rsub ⟨false, 0⟩) ∧
  decodeTableWord 24 0xDC00F1 = some (.wd ⟨false, 0x00F1⟩) ∧
  decodeTableWord 24 0xFFFFFF = some (.xos ⟨true, 0x7FFF⟩) ∧
  decodeTableWord 24 0x191000 = none

/-! ## The cycle -/

/-- R120: when the three bytes at PC decode to an instruction, a step is that instruction's meaning at
the same state; the meaning itself checks the effective address and advances PC (R126, R127). -/
def Obligations.StepRunsTheDecodedInstruction : Prop :=
  ∀ (s : State) (i : Instr), s.pc.toNat ≤ 32765 →
    decode s.cfg [s.mem.byteAt s.pc.toNat, s.mem.byteAt (s.pc.toNat + 1),
      s.mem.byteAt (s.pc.toNat + 2)] = .ok (i, []) →
    step s = exec i s

/-- The model's `withFetchWord` (log 16, the host's load and write of PC, R72, R306): the very next step
runs the instruction the word decodes to, and only memory and, if it left no room, PC are changed. -/
def Obligations.PlacedWordRunsNext : Prop :=
  ∀ (s : State) (nbits w : Nat) (i : Instr), s.cfg = defaultConfig →
    decodeTableWord nbits w = some i →
    step (s.withFetchWord nbits w) = exec i (s.withFetchWord nbits w) ∧
    (∀ r, r ≠ .PC → readReg (s.withFetchWord nbits w) r = readReg s r) ∧
    (s.withFetchWord nbits w).pc = (if s.pc.toNat ≤ 32765 then s.pc else 0#24)

/-- R121: a PC above 32767, tested on all 24 bits (the spec's D28; log 12, DEDUCED), halts the step with
`ProgramCounterFault` and nothing changed, whatever memory holds; nothing else raises that fault; and so does
the first step after reset. That the reason carries PC is the spec's D14 (log 14, DESIGN CHOICE). -/
def Obligations.ProgramCounterFaultExactlyAbove32767 : Prop :=
  (∀ s : State, 32767 < s.pc.toNat →
    step s = .fault (.halt (.programCounterFault s.pc) s)) ∧
  (∀ (s left : State) (v : Word), step s = .fault (.halt (.programCounterFault v) left) →
    32767 < s.pc.toNat) ∧
  step State.reset = .fault (.halt (.programCounterFault 0xFFFFFF#24) State.reset)

/-- R123, R263: an opcode byte that is no key of the table halts the step with
`UnrecognizedOpcodeFault(p, op)` and nothing changed, at 32766 and 32767 too; nothing else raises it. That
the reason carries p and op is the spec's D14 (log 14, DESIGN CHOICE). -/
def Obligations.UnrecognizedOpcodeFaultExactlyOnUnknownByte : Prop :=
  (∀ s : State, s.pc.toNat ≤ 32767 → lookupOpcode s.cfg (s.mem.byteAt s.pc.toNat) = none →
    step s = .fault (.halt
      (.unrecognizedOpcodeFault s.pc.toNat (s.mem.byteAt s.pc.toNat)) s)) ∧
  ∀ (s left : State) (p : Nat) (op : Byte),
    step s = .fault (.halt (.unrecognizedOpcodeFault p op) left) →
    s.pc.toNat ≤ 32767 ∧ lookupOpcode s.cfg (s.mem.byteAt s.pc.toNat) = none ∧
    p = s.pc.toNat ∧ op = s.mem.byteAt p ∧ left = s

/-- R124: the operand field is the two bytes after the opcode, first byte high (R57, the spec's D3; log 7,
DEDUCED); at 32766 and 32767 its fetch halts the step with `AddressRangeFault(32768)` and nothing changed.
The payload is the spec's D26 (log 14, DESIGN CHOICE). -/
def Obligations.OperandFieldFetch : Prop :=
  (∀ (s : State) (mn : Mnemonic), s.pc.toNat ≤ 32765 →
    lookupOpcode s.cfg (s.mem.byteAt s.pc.toNat) = some mn →
    fetch s = .ok (Instr.ofMnemonic mn (decodeField
      (s.mem.byteAt (s.pc.toNat + 1) ++ s.mem.byteAt (s.pc.toNat + 2) : BitVec 16)))) ∧
  ∀ (s : State) (mn : Mnemonic), s.pc.toNat = 32766 ∨ s.pc.toNat = 32767 →
    lookupOpcode s.cfg (s.mem.byteAt s.pc.toNat) = some mn →
    step s = .fault (.halt (.addressRangeFault 32768) s)

/-- R126, R128 (the spec's D8, D23; log 9, log 12): for every one of the 27 instructions, an effective
address above 32767 halts with `AddressRangeFault(m)` and nothing changed; the sum never wraps. For RD, WD
and TD with a device attached, that this fault comes before the refusal is the model's choice (log 24). The
payload is the spec's D14 (log 14). -/
def Obligations.OutOfRangeOperandHaltsEveryInstruction : Prop :=
  ∀ (i : Instr) (s : State) (m : Nat),
    m = i.operand.magnitude + (if i.operand.indexed then s.x.toNat else 0) → 32767 < m →
    exec i s = .fault (.halt (.addressRangeFault m) s)

/-- R131: what a halting step leaves. A halt of steps 1 to 3 (the fetch failed, or the effective address
is out of range) leaves the whole state; one of step 5, `NormalHalt` among them, leaves all but PC = p + 3
(the spec's D9, D10, D11; log 9, log 10). -/
def Obligations.HaltLeavesTheDocumentedState : Prop :=
  ∀ (s left : State) (r : HaltReason), step s = .fault (.halt r left) →
    ((fetch s = .error r ∨
        ∃ i, fetch s = .ok i ∧ 32767 < effectiveAddress i.operand s) ∧ left = s) ∨
    (∃ i, fetch s = .ok i ∧ effectiveAddress i.operand s ≤ 32767 ∧ left = pcAdvanced s)

/-- R132, R274, R244: a step is defined on every context. It answers CONTINUE or HALT, but for RD, WD and
TD under the configuration "device attached" (the spec's D12, D16; log 11, log 13). -/
def Obligations.StepAnswersOnEveryContext : Prop :=
  ∀ s : State, (∃ t, step s = .next t) ∨ (∃ r left, step s = .fault (.halt r left)) ∨
    (s.cfg.device = .attached ∧
      ∃ o, fetch s = .ok (.rd o) ∨ fetch s = .ok (.wd o) ∨ fetch s = .ok (.td o))

/-- R243, R245, R268: a step halts with `NormalHalt` iff it executes XOS in step 5, that is, iff an XOS passes
step 3. That step 3 checks the effective address of XOS, which does not use it, is R128 by the spec's D8
(log 9, DEDUCED). -/
def Obligations.NormalHaltExactlyFromXos : Prop :=
  ∀ s : State, (∃ left, step s = .fault (.halt .normalHalt left)) ↔
    ∃ o, fetch s = .ok (.xos o) ∧ effectiveAddress o s ≤ 32767

/-- R265, R266: where the two arithmetic faults come from, and that they leave A, and all but PC; a DIV by
zero raises its own fault whatever A holds, so before the range is looked at. That everything but PC stays
is R131 (b); that the range fault carries the mnemonic is R159 and R260, the spec's D14 (log 14, DESIGN
CHOICE). -/
def Obligations.ArithmeticFaultsOnlyFromTheirInstructions : Prop :=
  (∀ (s left : State) (mn : Mnemonic),
    step s = .fault (.halt (.arithmeticRangeFault mn) left) →
    left = pcAdvanced s ∧ ∃ o, effectiveAddress o s ≤ 32765 ∧
      ((mn = .add ∧ fetch s = .ok (.add o) ∧
          ¬ inRange (sgn24 s.a + sgn24 (wordAt s.mem (effectiveAddress o s)))) ∨
       (mn = .sub ∧ fetch s = .ok (.sub o) ∧
          ¬ inRange (sgn24 s.a - sgn24 (wordAt s.mem (effectiveAddress o s)))) ∨
       (mn = .mul ∧ fetch s = .ok (.mul o) ∧
          ¬ inRange (sgn24 s.a * sgn24 (wordAt s.mem (effectiveAddress o s)))) ∨
       (mn = .div ∧ fetch s = .ok (.div o) ∧
          ¬ inRange (Int.tdiv (sgn24 s.a) (sgn24 (wordAt s.mem (effectiveAddress o s))))))) ∧
  (∀ s left : State, step s = .fault (.halt .divisionByZeroFault left) →
    left = pcAdvanced s ∧ ∃ o, effectiveAddress o s ≤ 32765 ∧ fetch s = .ok (.div o) ∧
      wordAt s.mem (effectiveAddress o s) = 0#24) ∧
  ∀ (s : State) (o : Operand), fetch s = .ok (.div o) → effectiveAddress o s ≤ 32765 →
    wordAt s.mem (effectiveAddress o s) = 0#24 →
    step s = .fault (.halt .divisionByZeroFault (pcAdvanced s))

/-- R30: an instruction is fetched only from 0..32765, so the PC advance never wraps. -/
def Obligations.PcAdvanceNeverWraps : Prop :=
  ∀ (s : State) (i : Instr), fetch s = .ok i →
    s.pc.toNat ≤ 32765 ∧ (s.pc + 3#24).toNat = s.pc.toNat + 3

/-! ## Arithmetic, logic, compare -/

/-- ADD (R150, R151), at every word address: the exact signed sum, or the range fault with A unchanged;
its payload is R159, the spec's D14 (log 14). -/
def Obligations.AddResult : Prop :=
  ∀ (o : Operand) (s : State) (v : Int), effectiveAddress o s ≤ 32765 →
    v = sgn24 s.a + sgn24 (wordAt s.mem (effectiveAddress o s)) →
    (-8388608 ≤ v ∧ v ≤ 8388607 →
      exec (.add o) s = .next { s with a := enc24 v, pc := s.pc + 3#24 }) ∧
    (v < -8388608 ∨ 8388607 < v →
      exec (.add o) s =
        .fault (.halt (.arithmeticRangeFault .add) { s with pc := s.pc + 3#24 }))

/-- SUB (R150, R152; the payload is the spec's D14, log 14), at every word address. -/
def Obligations.SubResult : Prop :=
  ∀ (o : Operand) (s : State) (v : Int), effectiveAddress o s ≤ 32765 →
    v = sgn24 s.a - sgn24 (wordAt s.mem (effectiveAddress o s)) →
    (-8388608 ≤ v ∧ v ≤ 8388607 →
      exec (.sub o) s = .next { s with a := enc24 v, pc := s.pc + 3#24 }) ∧
    (v < -8388608 ∨ 8388607 < v →
      exec (.sub o) s =
        .fault (.halt (.arithmeticRangeFault .sub) { s with pc := s.pc + 3#24 }))

/-- MUL (R150, R153; the payload is the spec's D14, log 14), at every word address: the full signed product. -/
def Obligations.MulResult : Prop :=
  ∀ (o : Operand) (s : State) (v : Int), effectiveAddress o s ≤ 32765 →
    v = sgn24 s.a * sgn24 (wordAt s.mem (effectiveAddress o s)) →
    (-8388608 ≤ v ∧ v ≤ 8388607 →
      exec (.mul o) s = .next { s with a := enc24 v, pc := s.pc + 3#24 }) ∧
    (v < -8388608 ∨ 8388607 < v →
      exec (.mul o) s =
        .fault (.halt (.arithmeticRangeFault .mul) { s with pc := s.pc + 3#24 }))

/-- DIV (R150, R154; the payload is the spec's D14, log 14), at every word address: the zero divisor first,
then the quotient toward zero. -/
def Obligations.DivResult : Prop :=
  ∀ (o : Operand) (s : State) (w v : Int), effectiveAddress o s ≤ 32765 →
    w = sgn24 (wordAt s.mem (effectiveAddress o s)) → v = Int.tdiv (sgn24 s.a) w →
    (w = 0 →
      exec (.div o) s = .fault (.halt .divisionByZeroFault { s with pc := s.pc + 3#24 })) ∧
    (w ≠ 0 → -8388608 ≤ v ∧ v ≤ 8388607 →
      exec (.div o) s = .next { s with a := enc24 v, pc := s.pc + 3#24 }) ∧
    (w ≠ 0 → v < -8388608 ∨ 8388607 < v →
      exec (.div o) s =
        .fault (.halt (.arithmeticRangeFault .div) { s with pc := s.pc + 3#24 }))

/-- R154: the quotient is out of range for exactly one operand pair, -8388608 and -1. -/
def Obligations.OnlyOneQuotientIsOutOfRange : Prop :=
  ∀ a w : Word, w ≠ 0#24 →
    (¬ inRange (quotient (sgn24 a) (sgn24 w)) ↔ a = 0x800000#24 ∧ w = 0xFFFFFF#24)

/-- AND and OR (R155, R156), at every word address: bitwise on the 24 bits, no range fault. -/
def Obligations.AndOrResult : Prop :=
  ∀ (o : Operand) (s : State), effectiveAddress o s ≤ 32765 →
    exec (.and o) s =
      .next { s with a := s.a &&& wordAt s.mem (effectiveAddress o s), pc := s.pc + 3#24 } ∧
    exec (.or o) s =
      .next { s with a := s.a ||| wordAt s.mem (effectiveAddress o s), pc := s.pc + 3#24 }

/-- COMP (R157; signed by the spec's D6, log 6), at every word address: SW gets one of the three codes. -/
def Obligations.CompResult : Prop :=
  ∀ (o : Operand) (s : State) (w : Int), effectiveAddress o s ≤ 32765 →
    w = sgn24 (wordAt s.mem (effectiveAddress o s)) →
    (sgn24 s.a < w → exec (.comp o) s = .next { s with sw := s.cfg.swLt, pc := s.pc + 3#24 }) ∧
    (sgn24 s.a = w → exec (.comp o) s = .next { s with sw := s.cfg.swEq, pc := s.pc + 3#24 }) ∧
    (w < sgn24 s.a → exec (.comp o) s = .next { s with sw := s.cfg.swGt, pc := s.pc + 3#24 })

/-! ## Loads and stores -/

/-- LDA, LDX, LDL (R180, R181, R182), at every word address; LDX's address uses the old X. -/
def Obligations.WordLoadResult : Prop :=
  ∀ (o : Operand) (s : State), effectiveAddress o s ≤ 32765 →
    exec (.lda o) s =
      .next { s with a := wordAt s.mem (effectiveAddress o s), pc := s.pc + 3#24 } ∧
    exec (.ldx o) s =
      .next { s with x := wordAt s.mem (effectiveAddress o s), pc := s.pc + 3#24 } ∧
    exec (.ldl o) s =
      .next { s with l := wordAt s.mem (effectiveAddress o s), pc := s.pc + 3#24 }

/-- LDCH (R183), at every address: bits 7..0 of A are the byte, bits 23..8 stay. -/
def Obligations.LdchResult : Prop :=
  ∀ (o : Operand) (s : State), effectiveAddress o s ≤ 32767 →
    exec (.ldch o) s =
      .next { s with
        a := (s.a.extractLsb' 8 16 ++ s.mem.byteAt (effectiveAddress o s) : BitVec 24)
        pc := s.pc + 3#24 }

/-- STA, STL, STX, STSW (R184 to R187), at every word address: the register's 24 bits stand at m..m+2 most
significant byte first, every other byte reads as before, and only PC changes among the registers. -/
def Obligations.WordStoreResult : Prop :=
  ∀ (o : Operand) (s : State) (i : Instr) (v : Word), effectiveAddress o s ≤ 32765 →
    ((i = .sta o ∧ v = s.a) ∨ (i = .stl o ∧ v = s.l) ∨ (i = .stx o ∧ v = s.x) ∨
      (i = .stsw o ∧ v = s.sw)) →
    ∃ m, exec i s = .next { s with mem := m, pc := s.pc + 3#24 } ∧
      m.byteAt (effectiveAddress o s) = v.extractLsb' 16 8 ∧
      m.byteAt (effectiveAddress o s + 1) = v.extractLsb' 8 8 ∧
      m.byteAt (effectiveAddress o s + 2) = v.extractLsb' 0 8 ∧
      ∀ b, b < effectiveAddress o s ∨ effectiveAddress o s + 3 ≤ b → m.byteAt b = s.mem.byteAt b

/-- STCH (R188), at every address: one byte is stored, the low byte of A; nothing else changes but PC. -/
def Obligations.StchResult : Prop :=
  ∀ (o : Operand) (s : State), effectiveAddress o s ≤ 32767 →
    ∃ m, exec (.stch o) s = .next { s with mem := m, pc := s.pc + 3#24 } ∧
      m.byteAt (effectiveAddress o s) = s.a.extractLsb' 0 8 ∧
      ∀ b, b ≠ effectiveAddress o s → m.byteAt b = s.mem.byteAt b

/-- R130, R190, R264 (c) (the spec's D10, D11, D26; log 10, log 14): each of the 15 word instructions, at
32766 or 32767, halts in step 5 with `AddressRangeFault(32768)` and nothing changed but PC. -/
def Obligations.WordAccessPastTheEndHalts : Prop :=
  ∀ (i : Instr) (s : State), i.mnemonic ∈ wordReaders ++ wordWriters →
    (effectiveAddress i.operand s = 32766 ∨ effectiveAddress i.operand s = 32767) →
    exec i s = .fault (.halt (.addressRangeFault 32768) { s with pc := s.pc + 3#24 })

/-! ## Jumps, linkage, index -/

/-- J, JSUB, RSUB (R210, R214, R215), at every address: RSUB copies all 24 bits of L unchecked. -/
def Obligations.JumpAndLinkageResult : Prop :=
  ∀ (o : Operand) (s : State), effectiveAddress o s ≤ 32767 →
    exec (.j o) s = .next { s with pc := BitVec.ofNat 24 (effectiveAddress o s) } ∧
    exec (.jsub o) s =
      .next { s with l := s.pc + 3#24, pc := BitVec.ofNat 24 (effectiveAddress o s) } ∧
    exec (.rsub o) s = .next { s with pc := s.l } ∧
    (BitVec.ofNat 24 (effectiveAddress o s)).toNat = effectiveAddress o s

/-- JEQ, JGT, JLT (R33, R211, R212, R213), at every address, taken and not taken. -/
def Obligations.ConditionalJumpResult : Prop :=
  ∀ (o : Operand) (s : State), effectiveAddress o s ≤ 32767 →
    exec (.jeq o) s = .next { s with
      pc := if s.sw = s.cfg.swEq then BitVec.ofNat 24 (effectiveAddress o s) else s.pc + 3#24 } ∧
    exec (.jgt o) s = .next { s with
      pc := if s.sw = s.cfg.swGt then BitVec.ofNat 24 (effectiveAddress o s) else s.pc + 3#24 } ∧
    exec (.jlt o) s = .next { s with
      pc := if s.sw = s.cfg.swLt then BitVec.ofNat 24 (effectiveAddress o s) else s.pc + 3#24 }

/-- R34 (the spec's D5, log 8): under the constraints on the codes, at most one of the three jumps is
taken, and none while SW holds the reset value 0xFFFFFF. -/
def Obligations.AtMostOneConditionalJumpIsTaken : Prop :=
  ∀ (o : Operand) (s t : State), s.cfg.wf →
    (s.sw = 0xFFFFFF#24 →
      (exec (.jeq o) s = .next t ∨ exec (.jgt o) s = .next t ∨ exec (.jlt o) s = .next t) →
      t = pcAdvanced s) ∧
    (∀ i j : Instr, i ∈ [Instr.jeq o, .jgt o, .jlt o] → j ∈ [Instr.jeq o, .jgt o, .jlt o] →
      i ≠ j → exec i s = .next t → t ≠ pcAdvanced s → effectiveAddress o s ≤ 32767 →
      exec j s = .next (pcAdvanced s))

/-- TIX (R216; the wrap and the comparison by the spec's D7, log 5), at every word address and under both
settings of `TIX_CMP`; the address uses the old X, the comparison the new one. -/
def Obligations.TixResult : Prop :=
  ∀ (o : Operand) (s : State) (l r : Int), effectiveAddress o s ≤ 32765 →
    ((s.cfg.tixCmp = .unsigned ∧ l = ((s.x + 1#24).toNat : Int) ∧
        r = ((wordAt s.mem (effectiveAddress o s)).toNat : Int)) ∨
     (s.cfg.tixCmp = .signed ∧ l = sgn24 (s.x + 1#24) ∧
        r = sgn24 (wordAt s.mem (effectiveAddress o s)))) →
    (s.x + 1#24).toNat = (s.x.toNat + 1) % 16777216 ∧
    (l < r → exec (.tix o) s =
      .next { s with x := s.x + 1#24, sw := s.cfg.swLt, pc := s.pc + 3#24 }) ∧
    (l = r → exec (.tix o) s =
      .next { s with x := s.x + 1#24, sw := s.cfg.swEq, pc := s.pc + 3#24 }) ∧
    (r < l → exec (.tix o) s =
      .next { s with x := s.x + 1#24, sw := s.cfg.swGt, pc := s.pc + 3#24 })

/-! ## Devices and halt -/

/-- RD, WD, TD (R240 to R242; the spec's D12, D13, log 11) with no device attached, at every channel:
nothing changes but PC. -/
def Obligations.DeviceInstructionsWithoutDeviceOnlyAdvancePc : Prop :=
  ∀ (o : Operand) (s : State), effectiveAddress o s ≤ 32767 → s.cfg.device = .absent →
    exec (.rd o) s = .next { s with pc := s.pc + 3#24 } ∧
    exec (.wd o) s = .next { s with pc := s.pc + 3#24 } ∧
    exec (.td o) s = .next { s with pc := s.pc + 3#24 }

/-- R244 (the spec's D12; log 11, log 24): with a device attached the three are refused by name. -/
def Obligations.AttachedDeviceIsRefusedByName : Prop :=
  ∀ (o : Operand) (s : State), effectiveAddress o s ≤ 32767 → s.cfg.device = .attached →
    exec (.rd o) s = .refused (.deviceAttached .rd) ∧
    exec (.wd o) s = .refused (.deviceAttached .wd) ∧
    exec (.td o) s = .refused (.deviceAttached .td)

/-- XOS (R243; PC by the spec's C2 and D9, log 9), at every address: the step halts with `NormalHalt` and
leaves every register and memory cell but PC, which is p + 3. -/
def Obligations.XosHaltsNormally : Prop :=
  ∀ (o : Operand) (s : State), effectiveAddress o s ≤ 32767 →
    exec (.xos o) s = .fault (.halt .normalHalt { s with pc := s.pc + 3#24 })

/-- U8 and D12 (log 11): the value of `IDLE_BYTE` is not observable: a step under another value of it
gives the same result and the same state but for that parameter. -/
def Obligations.IdleByteIsUnobservable : Prop :=
  ∀ (s : State) (b : Byte),
    step (withIdleByte b s) = mapState (withIdleByte b) (step s)

/-! ## Frames: what an instruction leaves as it was -/

/-- R26, R32: when an instruction completes, A, X, L and SW are changed only by the instructions that the
rule lists for each. -/
def Obligations.RegistersChangeOnlyByTheirWriters : Prop :=
  ∀ (i : Instr) (s t : State), exec i s = .next t →
    (i.mnemonic ∉ [Mnemonic.add, .sub, .mul, .div, .and, .or, .lda, .ldch] → t.a = s.a) ∧
    (i.mnemonic ∉ [Mnemonic.ldx, .tix] → t.x = s.x) ∧
    (i.mnemonic ∉ [Mnemonic.ldl, .jsub] → t.l = s.l) ∧
    (i.mnemonic ∉ [Mnemonic.comp, .tix] → t.sw = s.sw)

/-- R217: PC after each instruction that completes. -/
def Obligations.PcAfterEachInstruction : Prop :=
  ∀ (i : Instr) (s t : State), exec i s = .next t →
    t.pc = match i with
      | .j o | .jsub o => BitVec.ofNat 24 (effectiveAddress o s)
      | .jeq o => if s.sw = s.cfg.swEq then BitVec.ofNat 24 (effectiveAddress o s) else s.pc + 3#24
      | .jgt o => if s.sw = s.cfg.swGt then BitVec.ofNat 24 (effectiveAddress o s) else s.pc + 3#24
      | .jlt o => if s.sw = s.cfg.swLt then BitVec.ofNat 24 (effectiveAddress o s) else s.pc + 3#24
      | .rsub _ => s.l
      | _ => s.pc + 3#24

/-- R37, R60: when an instruction completes, every byte of memory reads as before, but for the three bytes
a word store and the one byte STCH store at the effective address. -/
def Obligations.MemoryChangesOnlyWhereStored : Prop :=
  ∀ (i : Instr) (s t : State), exec i s = .next t → ∀ b : Nat,
    (i.mnemonic ∈ wordWriters →
      b < effectiveAddress i.operand s ∨ effectiveAddress i.operand s + 3 ≤ b →
      t.mem.byteAt b = s.mem.byteAt b) ∧
    (i.mnemonic = .stch → b ≠ effectiveAddress i.operand s →
      t.mem.byteAt b = s.mem.byteAt b) ∧
    (i.mnemonic ∉ wordWriters → i.mnemonic ≠ .stch → t.mem.byteAt b = s.mem.byteAt b)

/-- R5 (log 1): a step, halting or not, never changes the machine's parameters. -/
def Obligations.ParametersNeverChange : Prop :=
  ∀ s t : State, stateAfter? (step s) = some t → t.cfg = s.cfg

/-- R69: an instruction stored over the next one is what the next step runs, with nothing in between. -/
def Obligations.StoredInstructionRunsNext : Prop :=
  ∀ (s t : State) (o : Operand) (i : Instr), s.pc.toNat + 6 ≤ 32768 →
    effectiveAddress o s = s.pc.toNat + 3 → exec (.sta o) s = .next t →
    decode s.cfg [s.a.extractLsb' 16 8, s.a.extractLsb' 8 8, s.a.extractLsb' 0 8] = .ok (i, []) →
    step t = exec i t

/-! ## Invariants and runs -/

/-- Every step keeps the invariant: memory stays canonical (log 15), the parameters keep their constraints
(R101, R31), and SW stays the reset value or one of the three codes (R31, R32), also across a halt, from
which the host may step again (R274). -/
def Obligations.StepKeepsTheInvariant : Prop :=
  ∀ s t : State, Inv s → stateAfter? (step s) = some t → Inv t

/-- Once SW holds a condition code it holds one ever after (R31, R32, C4). -/
def Obligations.ConditionCodeStaysACode : Prop :=
  ∀ s t : State, swIsCode s → stateAfter? (step s) = some t → swIsCode t

/-- The invariant holds right after reset, under the default parameters (R5, R25; log 2 to log 4). -/
def Obligations.ResetMeetsTheInvariant : Prop := Inv State.reset

/-- Whatever records are loaded, the context `load` gives meets the invariant (R72, R25). -/
def Obligations.LoadEstablishesTheInvariant : Prop :=
  ∀ (cfg : Config) (records : List TextRecord) (s : State), cfg.wf →
    load cfg records = .ok s → Inv s

/-- R132, R245: a run has at most one end, and the host's `RegisterFormatFault` is never it (R267). -/
def Obligations.ARunHasOneEnd : Prop :=
  ∀ (s left left' : State) (r r' : HaltReason), RunEnds s r left → RunEnds s r' left' →
    r = r' ∧ left = left' ∧ r ≠ .registerFormatFault

/-- R245: a run ends with a reason exactly when some number of steps of the host's loop halt with it, so
the ends of runs are those of the machine `core`, run step by step. -/
def Obligations.RunEndsAreTheEndsOfCoreRuns : Prop :=
  ∀ (s left : State) (r : HaltReason),
    RunEnds s r left ↔ ∃ k, Sys2Proof.core.run k s = .fault (.halt r left)

/-! ## The host's textual register port -/

/-- R24, R267 (exact lengths by the spec's C3, log 18): the hexadecimal and binary views of any value set the
register back to it; text of another length or with a character that is no digit is `RegisterFormatFault`. -/
def Obligations.TextualRegisterPort : Prop :=
  (∀ (s : State) (r : Reg) (v : Word),
    setFromHex s r (asHex v) = .ok (writeReg s r v) ∧
    setFromBinary s r (asBinary v) = .ok (writeReg s r v)) ∧
  (∀ (s : State) (r : Reg) (cs : List Char),
    (cs.length ≠ 6 ∨ (∃ c ∈ cs, hexDigitValue c = none) →
      setFromHex s r cs = .error .registerFormatFault) ∧
    (cs.length ≠ 24 ∨ (∃ c ∈ cs, binDigitValue c = none) →
      setFromBinary s r cs = .error .registerFormatFault)) ∧
  ∀ (s : State) (r : Reg) (cs : List Char), cs.length = 6 →
    (∀ c ∈ cs, ∃ d, hexDigitValue c = some d) →
    ∃ v, setFromHex s r cs = .ok (writeReg s r v) ∧ asHex v = cs.map Char.toUpper
end

