-- ==== Sys2Proof/Laws/Arith.lean ====
section
/-! SUPPORT. The signed reading, the quotient and the comparison: one lemma per case. -/

namespace Sys2Proof.Machine

theorem sgn24_bounds (v : Word) : -8388608 ≤ sgn24 v ∧ sgn24 v ≤ 8388607 := by
  have := v.isLt
  unfold sgn24
  split <;> omega

/-- Two words with the same signed reading are the same. -/
theorem sgn24_injective {v w : Word} (h : sgn24 v = sgn24 w) : v = w := by
  have := v.isLt
  have := w.isLt
  apply BitVec.eq_of_toNat_eq
  unfold sgn24 at h
  split at h <;> split at h <;> omega

theorem sgn24_eq_zero {v : Word} : sgn24 v = 0 ↔ v = 0#24 :=
  ⟨fun h => sgn24_injective (h.trans (by decide)), fun h => by rw [h]; decide⟩

/-- The formula of R154 is integer division truncated toward zero. -/
theorem quotient_eq_tdiv (a w : Int) : quotient a w = a.tdiv w := by
  unfold quotient
  rcases a with a | a <;> rcases w with w | w
  · rcases a with _ | a <;> rcases w with _ | w <;> simp [Int.tdiv]
    rfl
  · rcases a with _ | a
    · simp [Int.tdiv]
    · simp [Int.tdiv]; rfl
  · rcases w with _ | w
    · simp [Int.tdiv]
    · simp [Int.tdiv]; rfl
  · simp [Int.tdiv]

/-! ## Comparison -/

theorem compareInts_lt {l r : Int} (h : l < r) : compareInts l r = .lessThan := if_pos h

theorem compareInts_eq {l r : Int} (h : l = r) : compareInts l r = .equal := by
  subst h; simp [compareInts]

theorem compareInts_gt {l r : Int} (h : r < l) : compareInts l r = .greaterThan := by
  simp only [compareInts, if_neg (Int.not_lt.2 (Int.le_of_lt h)), if_neg (Int.ne_of_gt h)]

end Sys2Proof.Machine
end

