-- ==== Sys2Proof/Laws/Memory.lean ====
section
/-! SUPPORT. What the memory operations do: a read after a write, and the canonical form kept. -/

namespace Sys2Proof.Machine

/-! ## Cells -/

@[simp] theorem byteAt_nil (a : Nat) : Memory.byteAt [] a = fill := rfl

@[simp] theorem byteAt_cons (k : Nat) (b : Byte) (rest : Memory) (a : Nat) :
    Memory.byteAt ((k, b) :: rest) a = if k = a then b else rest.byteAt a := rfl

theorem byteAt_filter_same (m : Memory) (a : Nat) :
    Memory.byteAt (m.filter fun c => c.1 != a) a = fill := by
  induction m with
  | nil => rfl
  | cons c rest ih =>
    obtain ⟨k, b⟩ := c
    by_cases h : k = a
    · subst h; simpa using ih
    · simp only [List.filter_cons, bne_iff_ne, ne_eq, h, not_false_eq_true, if_true, byteAt_cons,
        if_false]
      exact ih

theorem byteAt_filter_ne (m : Memory) {a a' : Nat} (h : a' ≠ a) :
    Memory.byteAt (m.filter fun c => c.1 != a) a' = m.byteAt a' := by
  induction m with
  | nil => rfl
  | cons c rest ih =>
    obtain ⟨k, b⟩ := c
    by_cases hk : k = a
    · subst hk
      simpa [h.symm] using ih
    · simp only [List.filter_cons, bne_iff_ne, ne_eq, hk, not_false_eq_true, if_true, byteAt_cons,
        ih]

theorem byteAt_insertCell_same (a : Nat) (v : Byte) (m : Memory) (h : ∀ c ∈ m, c.1 ≠ a) :
    (Memory.insertCell a v m).byteAt a = v := by
  induction m with
  | nil => simp [Memory.insertCell]
  | cons c rest ih =>
    obtain ⟨k, b⟩ := c
    have hk : k ≠ a := h (k, b) (by simp)
    have hr := ih fun c hc => h c (by simp [hc])
    unfold Memory.insertCell
    split
    · simp
    · simp [hk, hr]

theorem byteAt_insertCell_ne (v : Byte) (m : Memory) {a a' : Nat} (h : a' ≠ a) :
    (Memory.insertCell a v m).byteAt a' = m.byteAt a' := by
  induction m with
  | nil => simp [Memory.insertCell, h.symm]
  | cons c rest ih =>
    obtain ⟨k, b⟩ := c
    unfold Memory.insertCell
    split
    · simp [h.symm]
    · simp [ih]

/-- A read after a write to the same address gives the value written (R54). -/
@[simp] theorem byteAt_store_same (m : Memory) (a : Nat) (v : Byte) :
    (m.store a v).byteAt a = v := by
  unfold Memory.store
  by_cases hv : v = fill
  · simpa [hv] using byteAt_filter_same m a
  · simp only [hv, if_false]
    exact byteAt_insertCell_same a v _ (by simp)

/-- A write changes no other address (R54). -/
theorem byteAt_store_ne (m : Memory) (v : Byte) {a a' : Nat} (h : a' ≠ a) :
    (m.store a v).byteAt a' = m.byteAt a' := by
  unfold Memory.store
  by_cases hv : v = fill
  · simpa [hv] using byteAt_filter_ne m h
  · simp only [hv, if_false]
    rw [byteAt_insertCell_ne v _ h, byteAt_filter_ne m h]

/-- Outside the stored range a store of several bytes changes nothing. -/
theorem byteAt_storeAll_outside (bs : List Byte) (m : Memory) {a a' : Nat}
    (h : a' < a ∨ a + bs.length ≤ a') : (m.storeAll a bs).byteAt a' = m.byteAt a' := by
  induction bs generalizing m a with
  | nil => rfl
  | cons b rest ih =>
    simp only [List.length_cons] at h
    rw [Memory.storeAll, ih (m.store a b) (by omega), byteAt_store_ne m b (by omega)]

/-- Inside it, each address reads its byte. -/
theorem byteAt_storeAll_inside (bs : List Byte) (m : Memory) (a i : Nat) (h : i < bs.length) :
    (m.storeAll a bs).byteAt (a + i) = bs[i] := by
  induction bs generalizing m a i with
  | nil => simp at h
  | cons b rest ih =>
    cases i with
    | zero =>
      rw [Memory.storeAll, byteAt_storeAll_outside rest _ (by omega)]
      simp
    | succ i =>
      have hi : i < rest.length := by simpa using h
      rw [Memory.storeAll, show a + (i + 1) = a + 1 + i by omega, ih _ _ _ hi]
      simp

/-! ## The canonical form -/

@[simp] theorem wf_nil : Memory.wf [] := ⟨List.Pairwise.nil, by simp⟩

theorem wf_filter (m : Memory) (p : Host.Cell → Bool) (h : m.wf) : Memory.wf (m.filter p) :=
  ⟨h.1.filter p, fun c hc => h.2 c (List.mem_of_mem_filter hc)⟩

theorem mem_insertCell {a : Nat} {v : Byte} {m : Memory} {c : Host.Cell}
    (h : c ∈ Memory.insertCell a v m) : c = (a, v) ∨ c ∈ m := by
  induction m with
  | nil => simpa [Memory.insertCell] using h
  | cons d rest ih =>
    obtain ⟨k, b⟩ := d
    unfold Memory.insertCell at h
    split at h
    · simpa using h
    · rcases List.mem_cons.1 h with h | h
      · exact .inr (by simp [h])
      · rcases ih h with h | h
        · exact .inl h
        · exact .inr (by simp [h])

theorem wf_insertCell {a : Nat} {v : Byte} {m : Memory} (h : m.wf) (ha : a ≤ maxAddr)
    (hv : v ≠ fill) (hne : ∀ c ∈ m, c.1 ≠ a) : (Memory.insertCell a v m).wf := by
  refine ⟨?_, fun c hc => ?_⟩
  · obtain ⟨hp, -⟩ := h
    induction m with
    | nil => simp [Memory.insertCell]
    | cons d rest ih =>
      obtain ⟨k, b⟩ := d
      have hk : k ≠ a := hne (k, b) (by simp)
      rw [List.pairwise_cons] at hp
      unfold Memory.insertCell
      split
      next hlt =>
        refine List.pairwise_cons.2 ⟨fun c hc => ?_, List.pairwise_cons.2 hp⟩
        rcases List.mem_cons.1 hc with rfl | hc
        · exact hlt
        · exact Nat.lt_trans hlt (hp.1 c hc)
      next hlt =>
        refine List.pairwise_cons.2 ⟨fun c hc => ?_, ih (fun c hc => hne c (by simp [hc])) hp.2⟩
        rcases mem_insertCell hc with rfl | hc
        · exact Nat.lt_of_le_of_ne (Nat.le_of_not_lt hlt) hk
        · exact hp.1 c hc
  · rcases mem_insertCell hc with rfl | hc
    · exact ⟨ha, hv⟩
    · exact h.2 c hc

/-- A write inside memory keeps the canonical form. -/
theorem wf_store {m : Memory} {a : Nat} (v : Byte) (h : m.wf) (ha : a ≤ maxAddr) :
    (m.store a v).wf := by
  unfold Memory.store
  by_cases hv : v = fill
  · simpa [hv] using wf_filter m _ h
  · simp only [hv, if_false]
    exact wf_insertCell (wf_filter m _ h) ha hv (by simp)

theorem wf_storeAll (bs : List Byte) {m : Memory} {a : Nat} (h : m.wf)
    (ha : a + bs.length ≤ memSize) : (m.storeAll a bs).wf := by
  induction bs generalizing m a with
  | nil => exact h
  | cons b rest ih =>
    simp only [List.length_cons, memSize] at ha
    exact ih (wf_store b h (by simp only [maxAddr]; omega)) (by simp only [memSize]; omega)

theorem wf_writeByte {m m' : Memory} {a : Nat} {v : Byte} (h : m.wf)
    (hw : writeByte m a v = .ok m') : m'.wf := by
  unfold writeByte at hw
  split at hw
  next ha => cases hw; exact wf_store v h ha
  · cases hw

theorem wf_writeWord {m m' : Memory} {a : Nat} {v : Word} (h : m.wf)
    (hw : writeWord m a v = .ok m') : m'.wf := by
  unfold writeWord at hw
  split at hw
  next ha => cases hw; exact wf_storeAll (wordBytes v) h (by simpa [wordBytes] using ha)
  · cases hw

theorem wf_loadBytes {m m' : Memory} {a : Nat} {bs : List Byte} (h : m.wf)
    (hl : loadBytes m a bs = .ok m') : m'.wf := by
  induction bs generalizing m a with
  | nil => cases hl; exact h
  | cons b rest ih =>
    unfold loadBytes at hl
    split at hl
    next m1 h1 => exact ih (wf_writeByte h h1) hl
    · cases hl

theorem wf_loadRecords {m m' : Memory} {rs : List TextRecord} (h : m.wf)
    (hl : loadRecords m rs = .ok m') : m'.wf := by
  induction rs generalizing m with
  | nil => cases hl; exact h
  | cons r rest ih =>
    unfold loadRecords at hl
    split at hl
    next m1 h1 => exact ih (wf_loadBytes h h1) hl
    · cases hl

theorem wf_hostWriteByte {s s' : State} {a : Nat} {v : Byte} (h : s.mem.wf)
    (hw : hostWriteByte s a v = .ok s') : s'.mem.wf := by
  unfold hostWriteByte at hw
  cases hm : writeByte s.mem a v with
  | error r => rw [hm] at hw; cases hw
  | ok m => rw [hm] at hw; cases hw; exact wf_writeByte h hm

/-- Placing an instruction keeps the form: the three bytes always fit (log 16). -/
theorem wf_withFetchWord {s : State} (nbits w : Nat) (h : s.mem.wf) :
    (s.withFetchWord nbits w).mem.wf := by
  unfold State.withFetchWord
  by_cases hp : s.pc.toNat + 3 ≤ memSize
  · simp only [hp, if_true]
    exact wf_storeAll _ h (by simpa [tableBytes] using hp)
  · simp only [hp, if_false]
    exact wf_storeAll (a := 0) _ h (by simp [tableBytes, memSize])

theorem reset_mem_wf : State.reset.mem.wf := wf_nil

/-! ## Multi-byte values -/

theorem ofNat_bytesToNat_two (b c : Byte) :
    BitVec.ofNat 16 (bytesToNat [b, c]) = (b ++ c : BitVec 16) := by
  apply BitVec.eq_of_toNat_eq
  have := b.isLt; have := c.isLt
  simp only [bytesToNat, List.foldl, BitVec.toNat_ofNat, BitVec.toNat_append]
  rw [← Nat.shiftLeft_add_eq_or_of_lt c.isLt, Nat.shiftLeft_eq]
  omega

theorem ofNat_bytesToNat_three (b c d : Byte) :
    BitVec.ofNat 24 (bytesToNat [b, c, d]) = (b ++ c ++ d : BitVec 24) := by
  apply BitVec.eq_of_toNat_eq
  have := b.isLt; have := c.isLt; have := d.isLt
  simp only [bytesToNat, List.foldl, BitVec.toNat_ofNat, BitVec.toNat_append]
  rw [← Nat.shiftLeft_add_eq_or_of_lt c.isLt, ← Nat.shiftLeft_add_eq_or_of_lt d.isLt,
    Nat.shiftLeft_eq, Nat.shiftLeft_eq]
  omega

/-- The three bytes of a word, put together again, are the word. -/
theorem wordBytes_append (v : Word) :
    (v.extractLsb' 16 8 ++ v.extractLsb' 8 8 ++ v.extractLsb' 0 8 : BitVec 24) = v := by
  ext i hi
  simp only [BitVec.getElem_append, BitVec.getElem_extractLsb']
  split
  · simp [BitVec.getLsbD_eq_getElem hi]
  · split
    · rw [show 8 + (i - 8) = i by omega, BitVec.getLsbD_eq_getElem hi]
    · rw [show 16 + (i - 8 - 8) = i by omega, BitVec.getLsbD_eq_getElem hi]

theorem range_two : List.range 2 = [0, 1] := rfl
theorem range_three : List.range 3 = [0, 1, 2] := rfl

theorem readWord_ok (m : Memory) {a : Nat} (h : a + 3 ≤ memSize) :
    readWord m a = .ok (wordAt m a) := by
  simp [readWord, readBytes, h, Except.map, range_three, ofNat_bytesToNat_three, wordAt]

theorem readWord_error (m : Memory) {a : Nat} (h : memSize < a + 3) :
    readWord m a = .error (.addressRangeFault (lowestBad a)) := by
  simp [readWord, readBytes, Nat.not_le.2 h, Except.map]

theorem readField_ok (m : Memory) {a : Nat} (h : a + 2 ≤ memSize) :
    readField m a = .ok (m.byteAt a ++ m.byteAt (a + 1) : BitVec 16) := by
  simp [readField, readBytes, h, Except.map, range_two, ofNat_bytesToNat_two]

theorem readField_error (m : Memory) {a : Nat} (h : memSize < a + 2) :
    readField m a = .error (.addressRangeFault (lowestBad a)) := by
  simp [readField, readBytes, Nat.not_le.2 h, Except.map]

theorem readByte_ok (m : Memory) {a : Nat} (h : a ≤ maxAddr) :
    readByte m a = .ok (m.byteAt a) := by simp [readByte, h]

theorem writeByte_ok (m : Memory) {a : Nat} (v : Byte) (h : a ≤ maxAddr) :
    writeByte m a v = .ok (m.store a v) := by simp [writeByte, h]

theorem writeWord_ok (m : Memory) {a : Nat} (v : Word) (h : a + 3 ≤ memSize) :
    writeWord m a v = .ok (m.storeAll a (wordBytes v)) := by simp [writeWord, h]

theorem writeWord_error (m : Memory) {a : Nat} (v : Word) (h : memSize < a + 3) :
    writeWord m a v = .error (.addressRangeFault (lowestBad a)) := by
  simp [writeWord, Nat.not_le.2 h]

/-- A word read where a word was stored is that word. -/
theorem wordAt_storeAll_wordBytes (m : Memory) (a : Nat) (v : Word) :
    wordAt (m.storeAll a (wordBytes v)) a = v := by
  have h0 := byteAt_storeAll_inside (wordBytes v) m a 0 (by simp [wordBytes])
  have h1 := byteAt_storeAll_inside (wordBytes v) m a 1 (by simp [wordBytes])
  have h2 := byteAt_storeAll_inside (wordBytes v) m a 2 (by simp [wordBytes])
  simp only [Nat.add_zero] at h0
  rw [wordAt, h0, h1, h2]
  exact wordBytes_append v

end Sys2Proof.Machine
end

