-- ==== Sys2Proof/Laws/State.lean ====
section
/-! SUPPORT. One lemma per field per update of State, so that no later proof unfolds a record update. -/

namespace Sys2Proof.Machine

/-! ## Reading a register -/

@[simp] theorem readReg_A (s : State) : readReg s .A = s.a := rfl
@[simp] theorem readReg_X (s : State) : readReg s .X = s.x := rfl
@[simp] theorem readReg_L (s : State) : readReg s .L = s.l := rfl
@[simp] theorem readReg_PC (s : State) : readReg s .PC = s.pc := rfl
@[simp] theorem readReg_SW (s : State) : readReg s .SW = s.sw := rfl

/-! ## Writing a register -/

@[simp] theorem readReg_writeReg_same (s : State) (r : Reg) (v : Word) :
    readReg (writeReg s r v) r = v := by cases r <;> rfl

theorem readReg_writeReg_ne (s : State) (v : Word) {r r' : Reg} (h : r' ≠ r) :
    readReg (writeReg s r v) r' = readReg s r' := by
  cases r <;> cases r' <;> first | rfl | exact absurd rfl h

@[simp] theorem writeReg_mem (s : State) (r : Reg) (v : Word) : (writeReg s r v).mem = s.mem := by
  cases r <;> rfl

@[simp] theorem writeReg_cfg (s : State) (r : Reg) (v : Word) : (writeReg s r v).cfg = s.cfg := by
  cases r <;> rfl

@[simp] theorem writeReg_A_a (s : State) (v : Word) : (writeReg s .A v).a = v := rfl
@[simp] theorem writeReg_A_x (s : State) (v : Word) : (writeReg s .A v).x = s.x := rfl
@[simp] theorem writeReg_A_l (s : State) (v : Word) : (writeReg s .A v).l = s.l := rfl
@[simp] theorem writeReg_A_pc (s : State) (v : Word) : (writeReg s .A v).pc = s.pc := rfl
@[simp] theorem writeReg_A_sw (s : State) (v : Word) : (writeReg s .A v).sw = s.sw := rfl

@[simp] theorem writeReg_X_a (s : State) (v : Word) : (writeReg s .X v).a = s.a := rfl
@[simp] theorem writeReg_X_x (s : State) (v : Word) : (writeReg s .X v).x = v := rfl
@[simp] theorem writeReg_X_l (s : State) (v : Word) : (writeReg s .X v).l = s.l := rfl
@[simp] theorem writeReg_X_pc (s : State) (v : Word) : (writeReg s .X v).pc = s.pc := rfl
@[simp] theorem writeReg_X_sw (s : State) (v : Word) : (writeReg s .X v).sw = s.sw := rfl

@[simp] theorem writeReg_L_a (s : State) (v : Word) : (writeReg s .L v).a = s.a := rfl
@[simp] theorem writeReg_L_x (s : State) (v : Word) : (writeReg s .L v).x = s.x := rfl
@[simp] theorem writeReg_L_l (s : State) (v : Word) : (writeReg s .L v).l = v := rfl
@[simp] theorem writeReg_L_pc (s : State) (v : Word) : (writeReg s .L v).pc = s.pc := rfl
@[simp] theorem writeReg_L_sw (s : State) (v : Word) : (writeReg s .L v).sw = s.sw := rfl

@[simp] theorem writeReg_PC_a (s : State) (v : Word) : (writeReg s .PC v).a = s.a := rfl
@[simp] theorem writeReg_PC_x (s : State) (v : Word) : (writeReg s .PC v).x = s.x := rfl
@[simp] theorem writeReg_PC_l (s : State) (v : Word) : (writeReg s .PC v).l = s.l := rfl
@[simp] theorem writeReg_PC_pc (s : State) (v : Word) : (writeReg s .PC v).pc = v := rfl
@[simp] theorem writeReg_PC_sw (s : State) (v : Word) : (writeReg s .PC v).sw = s.sw := rfl

@[simp] theorem writeReg_SW_a (s : State) (v : Word) : (writeReg s .SW v).a = s.a := rfl
@[simp] theorem writeReg_SW_x (s : State) (v : Word) : (writeReg s .SW v).x = s.x := rfl
@[simp] theorem writeReg_SW_l (s : State) (v : Word) : (writeReg s .SW v).l = s.l := rfl
@[simp] theorem writeReg_SW_pc (s : State) (v : Word) : (writeReg s .SW v).pc = s.pc := rfl
@[simp] theorem writeReg_SW_sw (s : State) (v : Word) : (writeReg s .SW v).sw = v := rfl

/-! ## Replacing memory -/

@[simp] theorem readReg_setMem (s : State) (m : Memory) (r : Reg) :
    readReg (setMem s m) r = readReg s r := by cases r <;> rfl

@[simp] theorem setMem_a (s : State) (m : Memory) : (setMem s m).a = s.a := rfl
@[simp] theorem setMem_x (s : State) (m : Memory) : (setMem s m).x = s.x := rfl
@[simp] theorem setMem_l (s : State) (m : Memory) : (setMem s m).l = s.l := rfl
@[simp] theorem setMem_pc (s : State) (m : Memory) : (setMem s m).pc = s.pc := rfl
@[simp] theorem setMem_sw (s : State) (m : Memory) : (setMem s m).sw = s.sw := rfl
@[simp] theorem setMem_cfg (s : State) (m : Memory) : (setMem s m).cfg = s.cfg := rfl
@[simp] theorem setMem_mem (s : State) (m : Memory) : (setMem s m).mem = m := rfl

/-! ## Advancing PC -/

@[simp] theorem advance_a (s : State) : (advance s).a = s.a := rfl
@[simp] theorem advance_x (s : State) : (advance s).x = s.x := rfl
@[simp] theorem advance_l (s : State) : (advance s).l = s.l := rfl
@[simp] theorem advance_sw (s : State) : (advance s).sw = s.sw := rfl
@[simp] theorem advance_mem (s : State) : (advance s).mem = s.mem := rfl
@[simp] theorem advance_cfg (s : State) : (advance s).cfg = s.cfg := rfl
@[simp] theorem advance_pc (s : State) : (advance s).pc = s.pc + 3#24 := rfl

/-! ## Writing the condition code -/

@[simp] theorem setCondition_a (c : Condition) (s : State) : (setCondition c s).a = s.a := rfl
@[simp] theorem setCondition_x (c : Condition) (s : State) : (setCondition c s).x = s.x := rfl
@[simp] theorem setCondition_l (c : Condition) (s : State) : (setCondition c s).l = s.l := rfl
@[simp] theorem setCondition_pc (c : Condition) (s : State) : (setCondition c s).pc = s.pc := rfl
@[simp] theorem setCondition_mem (c : Condition) (s : State) : (setCondition c s).mem = s.mem := rfl
@[simp] theorem setCondition_cfg (c : Condition) (s : State) : (setCondition c s).cfg = s.cfg := rfl
@[simp] theorem setCondition_sw (c : Condition) (s : State) :
    (setCondition c s).sw = conditionCode s.cfg c := rfl

/-! ## The fresh state -/

@[simp] theorem readReg_fresh (cfg : Config) (r : Reg) : readReg (State.fresh cfg) r = regReset := by
  cases r <;> rfl

@[simp] theorem fresh_mem (cfg : Config) : (State.fresh cfg).mem = [] := rfl
@[simp] theorem fresh_cfg (cfg : Config) : (State.fresh cfg).cfg = cfg := rfl
@[simp] theorem fresh_sw (cfg : Config) : (State.fresh cfg).sw = regReset := rfl

end Sys2Proof.Machine
end

