-- ==== Sys2Proof/Laws/Operands.lean ====
section
/-! SUPPORT. One lemma per case of each shared operation: what it answers, and what a next state or a
halt of it can only come from. -/

namespace Sys2Proof.Machine

/-! ## attempt -/

@[simp] theorem attempt_ok {α : Type} (v : α) (s : State) (k : α → Result) :
    attempt (.ok v) s k = k v := rfl

@[simp] theorem attempt_error {α : Type} (r : HaltReason) (s : State) (k : α → Result) :
    attempt (.error r) s k = raise r s := rfl

/-- A next state comes only from a check that passed. -/
theorem attempt_next {α : Type} {e : Except HaltReason α} {s t : State} {k : α → Result}
    (h : attempt e s k = .next t) : ∃ v, e = .ok v ∧ k v = .next t := by
  cases e with
  | ok v => exact ⟨v, rfl, h⟩
  | error r => cases h

/-! ## withOperand -/

theorem withOperand_inside {o : Operand} {s : State} (k : Nat → State → Result)
    (h : effectiveAddress o s ≤ maxAddr) :
    withOperand o s k = k (effectiveAddress o s) (advance s) := by
  simp [withOperand, Nat.not_lt.2 h]

theorem withOperand_outside {o : Operand} {s : State} (k : Nat → State → Result)
    (h : maxAddr < effectiveAddress o s) :
    withOperand o s k = raise (.addressRangeFault (effectiveAddress o s)) s := by
  simp [withOperand, h]

/-- Everything `withOperand` can do: halt in step 3 with nothing changed, or go on with PC advanced. -/
theorem withOperand_cases (o : Operand) (s : State) (k : Nat → State → Result) :
    (maxAddr < effectiveAddress o s ∧
      withOperand o s k = raise (.addressRangeFault (effectiveAddress o s)) s) ∨
    (effectiveAddress o s ≤ maxAddr ∧
      withOperand o s k = k (effectiveAddress o s) (advance s)) := by
  by_cases h : effectiveAddress o s ≤ maxAddr
  · exact .inr ⟨h, withOperand_inside k h⟩
  · exact .inl ⟨by omega, withOperand_outside k (by omega)⟩

/-! ## withWord, loadWord, storeWord -/

theorem withWord_inside {o : Operand} {s : State} (k : Word → State → Result)
    (h : effectiveAddress o s + 3 ≤ memSize) :
    withWord o s k = k (wordAt s.mem (effectiveAddress o s)) (advance s) := by
  have hm : effectiveAddress o s ≤ maxAddr := by simp only [memSize, maxAddr] at *; omega
  rw [withWord, withOperand_inside _ hm]
  simp [readWord_ok s.mem h]

/-- A word that would run past the last address halts in step 5: only PC has changed (R130). -/
theorem withWord_short {o : Operand} {s : State} (k : Word → State → Result)
    (h : effectiveAddress o s ≤ maxAddr) (h' : memSize < effectiveAddress o s + 3) :
    withWord o s k = raise (.addressRangeFault memSize) (advance s) := by
  have hb : lowestBad (effectiveAddress o s) = memSize := by
    simp only [lowestBad, memSize, maxAddr] at *; omega
  rw [withWord, withOperand_inside _ h]
  simp [readWord_error s.mem h', hb]

theorem storeWord_inside (r : Reg) {o : Operand} {s : State}
    (h : effectiveAddress o s + 3 ≤ memSize) :
    storeWord r o s = .next (setMem (advance s)
      (s.mem.storeAll (effectiveAddress o s) (wordBytes (readReg (advance s) r)))) := by
  have hm : effectiveAddress o s ≤ maxAddr := by simp only [memSize, maxAddr] at *; omega
  rw [storeWord, withOperand_inside _ hm]
  simp [writeWord_ok s.mem _ h]

theorem storeWord_short (r : Reg) {o : Operand} {s : State}
    (h : effectiveAddress o s ≤ maxAddr) (h' : memSize < effectiveAddress o s + 3) :
    storeWord r o s = raise (.addressRangeFault memSize) (advance s) := by
  have hb : lowestBad (effectiveAddress o s) = memSize := by
    simp only [lowestBad, memSize, maxAddr] at *; omega
  rw [storeWord, withOperand_inside _ h]
  simp [writeWord_error s.mem _ h', hb]

/-- A next state after `withWord` comes only from a whole word inside memory. -/
theorem withWord_next {o : Operand} {s t : State} {k : Word → State → Result}
    (h : withWord o s k = .next t) :
    effectiveAddress o s + 3 ≤ memSize ∧
      k (wordAt s.mem (effectiveAddress o s)) (advance s) = .next t := by
  by_cases hi : effectiveAddress o s + 3 ≤ memSize
  · exact ⟨hi, by rw [← withWord_inside k hi]; exact h⟩
  · rcases withOperand_cases o s (fun m s1 => attempt (readWord s1.mem m) s1 fun w => k w s1) with
      ⟨-, hc⟩ | ⟨hle, -⟩
    · rw [withWord, hc] at h; cases h
    · rw [withWord_short k hle (by omega)] at h; cases h

/-! ## commitA -/

theorem commitA_inRange (mn : Mnemonic) {v : Int} (s : State) (h : inRange v) :
    commitA mn v s = .next (writeReg s .A (enc24 v)) := by simp [commitA, h]

theorem commitA_outOfRange (mn : Mnemonic) {v : Int} (s : State) (h : ¬ inRange v) :
    commitA mn v s = raise (.arithmeticRangeFault mn) s := by simp only [commitA, h, if_false]

/-! ## withAbsentDevice -/

theorem withAbsentDevice_absent (mn : Mnemonic) {o : Operand} {s : State}
    (k : Nat → State → Result) (h : effectiveAddress o s ≤ maxAddr)
    (hd : s.cfg.device = .absent) :
    withAbsentDevice mn o s k = k (effectiveAddress o s) (advance s) := by
  rw [withAbsentDevice, withOperand_inside _ h]
  simp [hd]

theorem withAbsentDevice_attached (mn : Mnemonic) {o : Operand} {s : State}
    (k : Nat → State → Result) (h : effectiveAddress o s ≤ maxAddr)
    (hd : s.cfg.device = .attached) :
    withAbsentDevice mn o s k = .refused (.deviceAttached mn) := by
  rw [withAbsentDevice, withOperand_inside _ h]
  simp [hd]

/-! ## fetch -/

theorem fetch_pcFault {s : State} (h : maxAddr < s.pc.toNat) :
    fetch s = .error (.programCounterFault s.pc) := by simp [fetch, h]

theorem fetch_unrecognized {s : State} (h : s.pc.toNat ≤ maxAddr)
    (ho : lookupOpcode s.cfg (s.mem.byteAt s.pc.toNat) = none) :
    fetch s = .error (.unrecognizedOpcodeFault s.pc.toNat (s.mem.byteAt s.pc.toNat)) := by
  simp [fetch, Nat.not_lt.2 h, readByte_ok s.mem h, ho]

theorem fetch_shortOperand {s : State} {mn : Mnemonic} (h : s.pc.toNat ≤ maxAddr)
    (h' : memSize < s.pc.toNat + 3)
    (ho : lookupOpcode s.cfg (s.mem.byteAt s.pc.toNat) = some mn) :
    fetch s = .error (.addressRangeFault memSize) := by
  have hb : lowestBad (s.pc.toNat + 1) = memSize := by
    simp only [lowestBad, memSize, maxAddr] at *; omega
  simp [fetch, Nat.not_lt.2 h, readByte_ok s.mem h, ho,
    readField_error s.mem (show memSize < s.pc.toNat + 1 + 2 by omega), hb]

theorem fetch_ok {s : State} {mn : Mnemonic} (h : s.pc.toNat + 3 ≤ memSize)
    (ho : lookupOpcode s.cfg (s.mem.byteAt s.pc.toNat) = some mn) :
    fetch s = .ok (Instr.ofMnemonic mn (decodeField
      (s.mem.byteAt (s.pc.toNat + 1) ++ s.mem.byteAt (s.pc.toNat + 2) : BitVec 16))) := by
  have hm : s.pc.toNat ≤ maxAddr := by simp only [memSize, maxAddr] at *; omega
  simp [fetch, Nat.not_lt.2 hm, readByte_ok s.mem hm, ho,
    readField_ok s.mem (show s.pc.toNat + 1 + 2 ≤ memSize by omega)]

/-- Everything `fetch` can do, in the order of the cycle (R120, R269). -/
theorem fetch_cases (s : State) :
    (maxAddr < s.pc.toNat ∧ fetch s = .error (.programCounterFault s.pc)) ∨
    (s.pc.toNat ≤ maxAddr ∧ lookupOpcode s.cfg (s.mem.byteAt s.pc.toNat) = none ∧
      fetch s = .error (.unrecognizedOpcodeFault s.pc.toNat (s.mem.byteAt s.pc.toNat))) ∨
    (s.pc.toNat ≤ maxAddr ∧ memSize < s.pc.toNat + 3 ∧
      (∃ mn, lookupOpcode s.cfg (s.mem.byteAt s.pc.toNat) = some mn) ∧
      fetch s = .error (.addressRangeFault memSize)) ∨
    (s.pc.toNat + 3 ≤ memSize ∧
      ∃ mn, lookupOpcode s.cfg (s.mem.byteAt s.pc.toNat) = some mn ∧
        fetch s = .ok (Instr.ofMnemonic mn (decodeField
          (s.mem.byteAt (s.pc.toNat + 1) ++ s.mem.byteAt (s.pc.toNat + 2) : BitVec 16)))) := by
  by_cases h : s.pc.toNat ≤ maxAddr
  · cases ho : lookupOpcode s.cfg (s.mem.byteAt s.pc.toNat) with
    | none => exact .inr (.inl ⟨h, rfl, fetch_unrecognized h ho⟩)
    | some mn =>
      by_cases hp : s.pc.toNat + 3 ≤ memSize
      · exact .inr (.inr (.inr ⟨hp, mn, rfl, fetch_ok hp ho⟩))
      · exact .inr (.inr (.inl ⟨h, by omega, ⟨mn, rfl⟩, fetch_shortOperand h (by omega) ho⟩))
  · exact .inl ⟨by omega, fetch_pcFault (by omega)⟩

theorem step_of_fetch {s : State} {i : Instr} (h : fetch s = .ok i) : step s = exec i s := by
  simp [step, h]

theorem step_of_fetch_error {s : State} {r : HaltReason} (h : fetch s = .error r) :
    step s = raise r s := by simp [step, h]

end Sys2Proof.Machine
end

