-- ==== Sys2Proof/Laws/Exec.lean ====
section
/-! SUPPORT. Each instruction as the shared operation it is built from: the equations that later proofs
rewrite with, so that no proof unfolds `exec` again. -/

namespace Sys2Proof.Machine

variable (o : Operand) (s : State)

/-! ## Loads and stores -/

theorem exec_lda : exec (.lda o) s = loadWord .A o s := rfl
theorem exec_ldx : exec (.ldx o) s = loadWord .X o s := rfl
theorem exec_ldl : exec (.ldl o) s = loadWord .L o s := rfl
theorem exec_sta : exec (.sta o) s = storeWord .A o s := rfl
theorem exec_stx : exec (.stx o) s = storeWord .X o s := rfl
theorem exec_stl : exec (.stl o) s = storeWord .L o s := rfl
theorem exec_stsw : exec (.stsw o) s = storeWord .SW o s := rfl

theorem loadWord_eq (r : Reg) :
    loadWord r o s = withWord o s fun w s1 => .next (writeReg s1 r w) := rfl

/-- LDCH inside memory (R183); a byte access cannot fail in step 5. -/
theorem exec_ldch {o : Operand} {s : State} (h : effectiveAddress o s ≤ maxAddr) :
    exec (.ldch o) s = .next (writeReg (advance s) .A
      (s.a.extractLsb' 8 16 ++ s.mem.byteAt (effectiveAddress o s) : BitVec 24)) := by
  refine (withOperand_inside (o := o) (s := s) (fun m s1 => attempt (readByte s1.mem m) s1 fun b =>
    .next (writeReg s1 .A ((readReg s1 .A).extractLsb' 8 16 ++ b : BitVec 24))) h).trans ?_
  simp [readByte_ok s.mem h]

/-- STCH inside memory (R188). -/
theorem exec_stch {o : Operand} {s : State} (h : effectiveAddress o s ≤ maxAddr) :
    exec (.stch o) s =
      .next (setMem (advance s) (s.mem.store (effectiveAddress o s) (s.a.extractLsb' 0 8))) := by
  refine (withOperand_inside (o := o) (s := s) (fun m s1 =>
    attempt (writeByte s1.mem m ((readReg s1 .A).extractLsb' 0 8)) s1 fun mem =>
      .next (setMem s1 mem)) h).trans ?_
  simp [writeByte_ok s.mem _ h]

/-! ## Arithmetic, logic, compare -/

theorem exec_add : exec (.add o) s =
    withWord o s fun w s1 => commitA .add (sgn24 s1.a + sgn24 w) s1 := rfl
theorem exec_sub : exec (.sub o) s =
    withWord o s fun w s1 => commitA .sub (sgn24 s1.a - sgn24 w) s1 := rfl
theorem exec_mul : exec (.mul o) s =
    withWord o s fun w s1 => commitA .mul (sgn24 s1.a * sgn24 w) s1 := rfl
theorem exec_div : exec (.div o) s = withWord o s fun w s1 =>
    if sgn24 w = 0 then raise .divisionByZeroFault s1
    else commitA .div (quotient (sgn24 s1.a) (sgn24 w)) s1 := rfl
theorem exec_and : exec (.and o) s =
    withWord o s fun w s1 => .next (writeReg s1 .A (s1.a &&& w)) := rfl
theorem exec_or : exec (.or o) s =
    withWord o s fun w s1 => .next (writeReg s1 .A (s1.a ||| w)) := rfl
theorem exec_comp : exec (.comp o) s = withWord o s fun w s1 =>
    .next (setCondition (compareInts (sgn24 s1.a) (sgn24 w)) s1) := rfl

/-! ## Jumps, linkage, index -/

theorem exec_jeq : exec (.jeq o) s = jumpIf .equal o s := rfl
theorem exec_jgt : exec (.jgt o) s = jumpIf .greaterThan o s := rfl
theorem exec_jlt : exec (.jlt o) s = jumpIf .lessThan o s := rfl

theorem jumpIf_eq (c : Condition) : jumpIf c o s = withOperand o s fun m s1 =>
    .next (if s1.sw = conditionCode s1.cfg c then writeReg s1 .PC (BitVec.ofNat 24 m) else s1) := rfl

/-- A conditional jump inside memory whose condition holds (R33). -/
theorem jumpIf_taken {c : Condition} {o : Operand} {s : State}
    (h : effectiveAddress o s ≤ maxAddr) (hc : s.sw = conditionCode s.cfg c) :
    jumpIf c o s =
      .next (writeReg (advance s) .PC (BitVec.ofNat 24 (effectiveAddress o s))) := by
  rw [jumpIf_eq, withOperand_inside _ h]
  exact congrArg Host.Outcome.next (if_pos hc)

/-- One whose condition does not hold: PC keeps its advanced value. -/
theorem jumpIf_not_taken {c : Condition} {o : Operand} {s : State}
    (h : effectiveAddress o s ≤ maxAddr) (hc : s.sw ≠ conditionCode s.cfg c) :
    jumpIf c o s = .next (advance s) := by
  rw [jumpIf_eq, withOperand_inside _ h]
  exact congrArg Host.Outcome.next (if_neg hc)

theorem exec_j : exec (.j o) s =
    withOperand o s fun m s1 => .next (writeReg s1 .PC (BitVec.ofNat 24 m)) := rfl
theorem exec_jsub : exec (.jsub o) s = withOperand o s fun m s1 =>
    .next (writeReg (writeReg s1 .L s1.pc) .PC (BitVec.ofNat 24 m)) := rfl
theorem exec_rsub : exec (.rsub o) s =
    withOperand o s fun _ s1 => .next (writeReg s1 .PC s1.l) := rfl
theorem exec_tix : exec (.tix o) s = withWord o s fun w s1 =>
    .next (setCondition (compareInts (readAs s1.cfg.tixCmp (s1.x + 1#24)) (readAs s1.cfg.tixCmp w))
      (writeReg s1 .X (s1.x + 1#24))) := rfl

/-! ## Devices and halt -/

theorem exec_rd : exec (.rd o) s = withAbsentDevice .rd o s fun _ s1 => .next s1 := rfl
theorem exec_wd : exec (.wd o) s = withAbsentDevice .wd o s fun _ s1 => .next s1 := rfl
theorem exec_td : exec (.td o) s = withAbsentDevice .td o s fun _ s1 => .next s1 := rfl
theorem exec_xos : exec (.xos o) s = withOperand o s fun _ s1 => raise .normalHalt s1 := rfl

end Sys2Proof.Machine
end

