-- ==== Sys2Proof/Laws/NextState.lean ====
section
/-! SUPPORT. What a next state can only be: one inversion lemma per shared operation, and one over all
instructions, for the frames and the invariants. -/

namespace Sys2Proof.Machine

theorem withOperand_next {o : Operand} {s t : State} {k : Nat → State → Result}
    (h : withOperand o s k = .next t) :
    effectiveAddress o s ≤ maxAddr ∧ k (effectiveAddress o s) (advance s) = .next t := by
  rcases withOperand_cases o s k with ⟨_, h'⟩ | ⟨hle, h'⟩
  · rw [h'] at h; cases h
  · exact ⟨hle, by rw [← h']; exact h⟩

theorem storeWord_next {o : Operand} {s t : State} {r : Reg} (h : storeWord r o s = .next t) :
    effectiveAddress o s + 3 ≤ memSize ∧ t = setMem (advance s)
      (s.mem.storeAll (effectiveAddress o s) (wordBytes (readReg (advance s) r))) := by
  obtain ⟨hle, hk⟩ := withOperand_next h
  by_cases h3 : effectiveAddress o s + 3 ≤ memSize
  · rw [storeWord_inside r h3] at h; cases h; exact ⟨h3, rfl⟩
  · rw [storeWord_short r hle (by omega)] at h; cases h

theorem commitA_next {mn : Mnemonic} {v : Int} {s t : State} (h : commitA mn v s = .next t) :
    inRange v ∧ t = writeReg s .A (enc24 v) := by
  unfold commitA at h
  split at h
  next hv => cases h; exact ⟨hv, rfl⟩
  · cases h

theorem withAbsentDevice_next {mn : Mnemonic} {o : Operand} {s t : State}
    (h : (withAbsentDevice mn o s fun _ s1 => .next s1) = .next t) :
    effectiveAddress o s ≤ maxAddr ∧ t = advance s := by
  obtain ⟨hle, hk⟩ := withOperand_next h
  split at hk
  · cases hk; exact ⟨hle, rfl⟩
  · cases hk

theorem jumpIf_next {c : Condition} {o : Operand} {s t : State} (h : jumpIf c o s = .next t) :
    effectiveAddress o s ≤ maxAddr ∧
      t = if s.sw = conditionCode s.cfg c then
        writeReg (advance s) .PC (BitVec.ofNat 24 (effectiveAddress o s)) else advance s := by
  obtain ⟨hle, hk⟩ := withOperand_next h
  refine ⟨hle, ?_⟩
  by_cases hc : s.sw = conditionCode s.cfg c
  · rw [jumpIf_taken hle hc] at h; cases h; rw [if_pos hc]
  · rw [jumpIf_not_taken hle hc] at h; cases h; rw [if_neg hc]

/-- The shape of the next state of each instruction: the advanced state with the one register it may have
written, or the memory it may have stored to. -/
def NextShape (i : Instr) (s t : State) : Prop :=
  match i with
  | .lda o => t = writeReg (advance s) .A (wordAt s.mem (effectiveAddress o s))
  | .ldx o => t = writeReg (advance s) .X (wordAt s.mem (effectiveAddress o s))
  | .ldl o => t = writeReg (advance s) .L (wordAt s.mem (effectiveAddress o s))
  | .ldch o => t = writeReg (advance s) .A
      (s.a.extractLsb' 8 16 ++ s.mem.byteAt (effectiveAddress o s) : BitVec 24)
  | .add _ | .sub _ | .mul _ | .div _ | .and _ | .or _ => ∃ v, t = writeReg (advance s) .A v
  | .comp _ => ∃ c, t = setCondition c (advance s)
  | .tix _ => ∃ c v, t = setCondition c (writeReg (advance s) .X v)
  | .sta o => effectiveAddress o s + 3 ≤ memSize ∧
      t = setMem (advance s) (s.mem.storeAll (effectiveAddress o s) (wordBytes s.a))
  | .stx o => effectiveAddress o s + 3 ≤ memSize ∧
      t = setMem (advance s) (s.mem.storeAll (effectiveAddress o s) (wordBytes s.x))
  | .stl o => effectiveAddress o s + 3 ≤ memSize ∧
      t = setMem (advance s) (s.mem.storeAll (effectiveAddress o s) (wordBytes s.l))
  | .stsw o => effectiveAddress o s + 3 ≤ memSize ∧
      t = setMem (advance s) (s.mem.storeAll (effectiveAddress o s) (wordBytes s.sw))
  | .stch o =>
      t = setMem (advance s) (s.mem.store (effectiveAddress o s) (s.a.extractLsb' 0 8))
  | .j o => t = writeReg (advance s) .PC (BitVec.ofNat 24 (effectiveAddress o s))
  | .jeq o => t = if s.sw = s.cfg.swEq then
      writeReg (advance s) .PC (BitVec.ofNat 24 (effectiveAddress o s)) else advance s
  | .jgt o => t = if s.sw = s.cfg.swGt then
      writeReg (advance s) .PC (BitVec.ofNat 24 (effectiveAddress o s)) else advance s
  | .jlt o => t = if s.sw = s.cfg.swLt then
      writeReg (advance s) .PC (BitVec.ofNat 24 (effectiveAddress o s)) else advance s
  | .jsub o => t = writeReg (writeReg (advance s) .L (s.pc + 3#24)) .PC
      (BitVec.ofNat 24 (effectiveAddress o s))
  | .rsub _ => t = writeReg (advance s) .PC s.l
  | .rd _ | .wd _ | .td _ => t = advance s
  | .xos _ => False

/-- Every next state has the shape of its instruction, and comes from an address inside memory. -/
theorem exec_next {i : Instr} {s t : State} (h : exec i s = .next t) :
    effectiveAddress i.operand s ≤ maxAddr ∧ NextShape i s t := by
  have hm : ∀ {a}, a + 3 ≤ memSize → a ≤ maxAddr := by intro a h; simp only [memSize, maxAddr] at *; omega
  cases i with
  | lda o =>
    rw [exec_lda, loadWord_eq] at h
    obtain ⟨h1, h2⟩ := withWord_next h
    cases h2
    exact ⟨hm h1, rfl⟩
  | ldx o =>
    rw [exec_ldx, loadWord_eq] at h
    obtain ⟨h1, h2⟩ := withWord_next h
    cases h2
    exact ⟨hm h1, rfl⟩
  | ldl o =>
    rw [exec_ldl, loadWord_eq] at h
    obtain ⟨h1, h2⟩ := withWord_next h
    cases h2
    exact ⟨hm h1, rfl⟩
  | ldch o =>
    have hle : effectiveAddress o s ≤ maxAddr := (withOperand_next (o := o) (t := t)
      (k := fun m s1 => attempt (readByte s1.mem m) s1 fun b =>
        .next (writeReg s1 .A ((readReg s1 .A).extractLsb' 8 16 ++ b : BitVec 24))) h).1
    rw [exec_ldch hle] at h; cases h; exact ⟨hle, rfl⟩
  | stch o =>
    have hle : effectiveAddress o s ≤ maxAddr := (withOperand_next (o := o) (t := t) (k := fun m s1 =>
      attempt (writeByte s1.mem m ((readReg s1 .A).extractLsb' 0 8)) s1 fun mem =>
        .next (setMem s1 mem)) h).1
    rw [exec_stch hle] at h; cases h; exact ⟨hle, rfl⟩
  | add o =>
    rw [exec_add] at h
    obtain ⟨h1, h2⟩ := withWord_next h
    exact ⟨hm h1, _, (commitA_next h2).2⟩
  | sub o =>
    rw [exec_sub] at h
    obtain ⟨h1, h2⟩ := withWord_next h
    exact ⟨hm h1, _, (commitA_next h2).2⟩
  | mul o =>
    rw [exec_mul] at h
    obtain ⟨h1, h2⟩ := withWord_next h
    exact ⟨hm h1, _, (commitA_next h2).2⟩
  | div o =>
    rw [exec_div] at h; obtain ⟨h1, h2⟩ := withWord_next h
    split at h2
    · cases h2
    · exact ⟨hm h1, _, (commitA_next h2).2⟩
  | and o =>
    rw [exec_and] at h
    obtain ⟨h1, h2⟩ := withWord_next h
    cases h2
    exact ⟨hm h1, _, rfl⟩
  | or o =>
    rw [exec_or] at h
    obtain ⟨h1, h2⟩ := withWord_next h
    cases h2
    exact ⟨hm h1, _, rfl⟩
  | comp o =>
    rw [exec_comp] at h
    obtain ⟨h1, h2⟩ := withWord_next h
    cases h2
    exact ⟨hm h1, _, rfl⟩
  | tix o =>
    rw [exec_tix] at h
    obtain ⟨h1, h2⟩ := withWord_next h
    cases h2
    exact ⟨hm h1, _, _, rfl⟩
  | sta o =>
    rw [exec_sta] at h
    obtain ⟨h1, h2⟩ := storeWord_next h
    exact ⟨hm h1, h1, h2⟩
  | stx o =>
    rw [exec_stx] at h
    obtain ⟨h1, h2⟩ := storeWord_next h
    exact ⟨hm h1, h1, h2⟩
  | stl o =>
    rw [exec_stl] at h
    obtain ⟨h1, h2⟩ := storeWord_next h
    exact ⟨hm h1, h1, h2⟩
  | stsw o =>
    rw [exec_stsw] at h
    obtain ⟨h1, h2⟩ := storeWord_next h
    exact ⟨hm h1, h1, h2⟩
  | jeq o =>
    rw [exec_jeq] at h
    exact jumpIf_next h
  | jgt o =>
    rw [exec_jgt] at h
    exact jumpIf_next h
  | jlt o =>
    rw [exec_jlt] at h
    exact jumpIf_next h
  | j o =>
    rw [exec_j] at h
    obtain ⟨h1, h2⟩ := withOperand_next h
    cases h2
    exact ⟨h1, rfl⟩
  | jsub o =>
    rw [exec_jsub] at h
    obtain ⟨h1, h2⟩ := withOperand_next h
    cases h2
    exact ⟨h1, rfl⟩
  | rsub o =>
    rw [exec_rsub] at h
    obtain ⟨h1, h2⟩ := withOperand_next h
    cases h2
    exact ⟨h1, rfl⟩
  | rd o =>
    rw [exec_rd] at h
    exact withAbsentDevice_next h
  | wd o =>
    rw [exec_wd] at h
    exact withAbsentDevice_next h
  | td o =>
    rw [exec_td] at h
    exact withAbsentDevice_next h
  | xos o =>
    rw [exec_xos] at h
    obtain ⟨h1, h2⟩ := withOperand_next h
    cases h2

end Sys2Proof.Machine
end

