-- ==== Sys2Proof/Laws/PerInstr.lean ====
section
/-! SUPPORT. Per-instruction family `Rebuild`: an instruction is what its mnemonic and its operand make,
the step that the encoder's and the decoder's round trips rest on. -/

namespace Sys2Proof.Laws

/-- The instruction is rebuilt from its mnemonic and its operand. -/
def Rebuild.Statement (i : Instr) : Prop :=
  Instr.ofMnemonic i.mnemonic i.operand = i

theorem Rebuild.lda (o : Operand) : Rebuild.Statement (.lda o) := rfl
theorem Rebuild.ldx (o : Operand) : Rebuild.Statement (.ldx o) := rfl
theorem Rebuild.ldl (o : Operand) : Rebuild.Statement (.ldl o) := rfl
theorem Rebuild.sta (o : Operand) : Rebuild.Statement (.sta o) := rfl
theorem Rebuild.stx (o : Operand) : Rebuild.Statement (.stx o) := rfl
theorem Rebuild.stl (o : Operand) : Rebuild.Statement (.stl o) := rfl
theorem Rebuild.add (o : Operand) : Rebuild.Statement (.add o) := rfl
theorem Rebuild.sub (o : Operand) : Rebuild.Statement (.sub o) := rfl
theorem Rebuild.mul (o : Operand) : Rebuild.Statement (.mul o) := rfl
theorem Rebuild.div (o : Operand) : Rebuild.Statement (.div o) := rfl
theorem Rebuild.comp (o : Operand) : Rebuild.Statement (.comp o) := rfl
theorem Rebuild.tix (o : Operand) : Rebuild.Statement (.tix o) := rfl
theorem Rebuild.jeq (o : Operand) : Rebuild.Statement (.jeq o) := rfl
theorem Rebuild.jgt (o : Operand) : Rebuild.Statement (.jgt o) := rfl
theorem Rebuild.jlt (o : Operand) : Rebuild.Statement (.jlt o) := rfl
theorem Rebuild.j (o : Operand) : Rebuild.Statement (.j o) := rfl
theorem Rebuild.and (o : Operand) : Rebuild.Statement (.and o) := rfl
theorem Rebuild.or (o : Operand) : Rebuild.Statement (.or o) := rfl
theorem Rebuild.jsub (o : Operand) : Rebuild.Statement (.jsub o) := rfl
theorem Rebuild.rsub (o : Operand) : Rebuild.Statement (.rsub o) := rfl
theorem Rebuild.ldch (o : Operand) : Rebuild.Statement (.ldch o) := rfl
theorem Rebuild.stch (o : Operand) : Rebuild.Statement (.stch o) := rfl
theorem Rebuild.rd (o : Operand) : Rebuild.Statement (.rd o) := rfl
theorem Rebuild.wd (o : Operand) : Rebuild.Statement (.wd o) := rfl
theorem Rebuild.td (o : Operand) : Rebuild.Statement (.td o) := rfl
theorem Rebuild.stsw (o : Operand) : Rebuild.Statement (.stsw o) := rfl
theorem Rebuild.xos (o : Operand) : Rebuild.Statement (.xos o) := rfl

end Sys2Proof.Laws
end

