-- ==== Sys2Proof/Tests/Slice0.lean ====
section
/-! SUPPORT. The model's own tests: the well-formedness smoke, one word per row of the opcode table written out
bit by bit from R91 and R97, single steps with the results of spec/95_test_vectors.md (the vector's name
stands beside each), and for every statement with hypotheses a witness that meets them. -/

open Sys2Proof Sys2Proof.Machine Sys2Proof.Claims

namespace Sys2Proof.Tests

/-! ## Well-formedness: one ill-formed term per check -/

theorem test_wf_operand : Instr.wf (.lda ⟨true, 32767⟩) ∧ ¬ Instr.wf (.lda ⟨false, 32768⟩) := by decide

theorem test_wf_record : TextRecord.wf ⟨32767, []⟩ ∧ ¬ TextRecord.wf ⟨32768, []⟩ := by decide

theorem test_wf_default : defaultConfig.wf := by decide

/-- A byte listed twice (R101). -/
def twoKeys : Config := { defaultConfig with optab := (0x00#8, .xos) :: defaultOptab.dropLast }

theorem test_wf_keys : ¬ twoKeys.keysDistinct ∧ ¬ twoKeys.wf := by decide

/-- A mnemonic with two bytes (R101). -/
def twoBytes : Config := { defaultConfig with optab := (0x01#8, .lda) :: defaultOptab }

theorem test_wf_mnemonics : ¬ twoBytes.mnemonicsDistinct ∧ ¬ twoBytes.wf := by decide

/-- A mnemonic with no byte (R101). -/
def noXos : Config := { defaultConfig with optab := defaultOptab.dropLast }

theorem test_wf_complete : ¬ noXos.mnemonicsComplete ∧ ¬ noXos.wf := by decide

/-- Two equal condition codes (R31). -/
def equalCodes : Config := { defaultConfig with swGt := 0x000040#24 }

theorem test_wf_codes : ¬ equalCodes.codesDistinct ∧ ¬ equalCodes.wf := by decide

/-- A code that is the reset value (R31). -/
def resetCode : Config := { defaultConfig with swLt := 0xFFFFFF#24 }

theorem test_wf_reset_code : ¬ resetCode.codesNotReset ∧ ¬ resetCode.wf := by decide

theorem test_wf_memory : Memory.wf [(0, 1#8), (32767, 2#8)] ∧ ¬ Memory.wf [(1, 1#8), (0, 2#8)] ∧
    ¬ Memory.wf [(32768, 1#8)] ∧ ¬ Memory.wf [(0, 0xFF#8)] := by decide

/-! ## Decoding: every row, the word written out from R91 (opcode, x, addr) and R97 -/

theorem test_decode_lda :
    decodeTableWord 24 0b00000000_0_001000000000000 = some (.lda ⟨false, 4096⟩) := by decide
theorem test_decode_ldx :
    decodeTableWord 24 0b00000100_1_111111111111111 = some (.ldx ⟨true, 32767⟩) := by decide
theorem test_decode_ldl :
    decodeTableWord 24 0b00001000_0_000000000000000 = some (.ldl ⟨false, 0⟩) := by decide
theorem test_decode_sta :
    decodeTableWord 24 0b00001100_1_000000000000001 = some (.sta ⟨true, 1⟩) := by decide
theorem test_decode_stx :
    decodeTableWord 24 0b00010000_0_100000000000000 = some (.stx ⟨false, 16384⟩) := by decide
theorem test_decode_stl :
    decodeTableWord 24 0b00010100_1_101101001011010 = some (.stl ⟨true, 23130⟩) := by decide
theorem test_decode_add :
    decodeTableWord 24 0b00011000_0_010110110110111 = some (.add ⟨false, 11703⟩) := by decide
theorem test_decode_sub :
    decodeTableWord 24 0b00011100_1_000000011110001 = some (.sub ⟨true, 241⟩) := by decide
theorem test_decode_mul :
    decodeTableWord 24 0b00100000_0_001000000000000 = some (.mul ⟨false, 4096⟩) := by decide
theorem test_decode_div :
    decodeTableWord 24 0b00100100_1_111111111111111 = some (.div ⟨true, 32767⟩) := by decide
theorem test_decode_comp :
    decodeTableWord 24 0b00101000_0_000000000000000 = some (.comp ⟨false, 0⟩) := by decide
theorem test_decode_tix :
    decodeTableWord 24 0b00101100_1_000000000000001 = some (.tix ⟨true, 1⟩) := by decide
theorem test_decode_jeq :
    decodeTableWord 24 0b00110000_0_100000000000000 = some (.jeq ⟨false, 16384⟩) := by decide
theorem test_decode_jgt :
    decodeTableWord 24 0b00110100_1_101101001011010 = some (.jgt ⟨true, 23130⟩) := by decide
theorem test_decode_jlt :
    decodeTableWord 24 0b00111000_0_010110110110111 = some (.jlt ⟨false, 11703⟩) := by decide
theorem test_decode_j :
    decodeTableWord 24 0b00111100_1_000000011110001 = some (.j ⟨true, 241⟩) := by decide
theorem test_decode_and :
    decodeTableWord 24 0b01000000_0_001000000000000 = some (.and ⟨false, 4096⟩) := by decide
theorem test_decode_or :
    decodeTableWord 24 0b01000100_1_111111111111111 = some (.or ⟨true, 32767⟩) := by decide
theorem test_decode_jsub :
    decodeTableWord 24 0b01001000_0_000000000000000 = some (.jsub ⟨false, 0⟩) := by decide
theorem test_decode_rsub :
    decodeTableWord 24 0b01001100_1_000000000000001 = some (.rsub ⟨true, 1⟩) := by decide
theorem test_decode_ldch :
    decodeTableWord 24 0b01010000_0_100000000000000 = some (.ldch ⟨false, 16384⟩) := by decide
theorem test_decode_stch :
    decodeTableWord 24 0b01010100_1_101101001011010 = some (.stch ⟨true, 23130⟩) := by decide
theorem test_decode_rd :
    decodeTableWord 24 0b11011000_0_010110110110111 = some (.rd ⟨false, 11703⟩) := by decide
theorem test_decode_wd :
    decodeTableWord 24 0b11011100_1_000000011110001 = some (.wd ⟨true, 241⟩) := by decide
theorem test_decode_td :
    decodeTableWord 24 0b11100000_0_001000000000000 = some (.td ⟨false, 4096⟩) := by decide
theorem test_decode_stsw :
    decodeTableWord 24 0b11101000_1_111111111111111 = some (.stsw ⟨true, 32767⟩) := by decide
theorem test_decode_xos :
    decodeTableWord 24 0b11111111_0_000000000000000 = some (.xos ⟨false, 0⟩) := by decide

/-- R99: illegal bytes, among them neighbours of legal ones. -/
theorem test_decode_illegal : ([0x01, 0x02, 0x03, 0x05, 0x19, 0x58, 0xD7, 0xE4, 0xEC, 0xFE].all
    fun op => decodeTableWord 24 (op * 65536) == none) = true := by decide

/-- R103's example, and the two forms of RSUB and XOS. -/
theorem test_encode : encode defaultConfig (.lda ⟨false, 0x1000⟩) = some [0x00#8, 0x10#8, 0x00#8] ∧
    encode defaultConfig (.stch ⟨true, 0x0140⟩) = some [0x54#8, 0x81#8, 0x40#8] ∧
    encode defaultConfig (.rsub ⟨false, 0⟩) = some [0x4C#8, 0x00#8, 0x00#8] ∧
    encode defaultConfig (.xos ⟨true, 0x7FFF⟩) = some [0xFF#8, 0xFF#8, 0xFF#8] := by decide

/-! ## Single steps -/

/-- A memory with runs of bytes at addresses. -/
def memOf (runs : List (Nat × List Byte)) : Memory :=
  runs.foldl (fun m r => m.storeAll r.1 r.2) []

/-- The start state of spec/95_test_vectors.md section 2 with its PC, A, X, L, SW and memory. -/
def start (pc a x l sw : Word) (runs : List (Nat × List Byte)) : State :=
  { a := a, x := x, l := l, pc := pc, sw := sw, mem := memOf runs, cfg := defaultConfig }

/-- What a step shows: the reason of a halt, and A, X, L, PC, SW. -/
def see : Result → Option (Option HaltReason × List Word)
  | .next t => some (none, [t.a, t.x, t.l, t.pc, t.sw])
  | .fault (.halt r t) => some (some r, [t.a, t.x, t.l, t.pc, t.sw])
  | .refused _ => none

/-- The bytes a step leaves at addresses. -/
def seeBytes (r : Result) (as : List Nat) : Option (List Byte) :=
  (stateAfter? r).map fun t => as.map t.mem.byteAt

/-- V-L4: `LDA 7FFD`. -/
theorem test_step_lda_last :
    see (step (start 0x000100 0x000000 0x000000 0x000000 0xFFFFFF
      [(0x0100, [0x00, 0x7F, 0xFD]), (0x7FFD, [0x01, 0x02, 0x03])])) =
      some (none, [0x010203, 0x000000, 0x000000, 0x000103, 0xFFFFFF]) := by decide

/-- V-L5: `LDA 7FFE`. -/
theorem test_step_lda_short :
    see (step (start 0x000100 0x123456 0x000000 0x000000 0xFFFFFF
      [(0x0100, [0x00, 0x7F, 0xFE])])) =
      some ((some (.addressRangeFault 32768)), [0x123456, 0x000000, 0x000000, 0x000103, 0xFFFFFF]) := by decide

/-- V-L9: `LDX 0FFD,X`. -/
theorem test_step_ldx_old_x :
    see (step (start 0x000100 0x000000 0x000003 0x000000 0xFFFFFF
      [(0x0100, [0x04, 0x8F, 0xFD]), (0x1000, [0x00, 0x00, 0x10])])) =
      some (none, [0x000000, 0x000010, 0x000000, 0x000103, 0xFFFFFF]) := by decide

/-- V-L8: `LDX 1000`. -/
theorem test_step_ldx_raw :
    see (step (start 0x000100 0x000000 0x000000 0x000000 0xFFFFFF
      [(0x0100, [0x04, 0x10, 0x00]), (0x1000, [0x80, 0x00, 0x01])])) =
      some (none, [0x000000, 0x800001, 0x000000, 0x000103, 0xFFFFFF]) := by decide

/-- V-L7: `LDL 1000`. -/
theorem test_step_ldl :
    see (step (start 0x000100 0x000000 0x000000 0x000000 0xFFFFFF
      [(0x0100, [0x08, 0x10, 0x00]), (0x1000, [0x00, 0xAB, 0xCD])])) =
      some (none, [0x000000, 0x000000, 0x00ABCD, 0x000103, 0xFFFFFF]) := by decide

/-- V-L10: `LDCH 1000`. -/
theorem test_step_ldch :
    see (step (start 0x000100 0x123456 0x000000 0x000000 0xFFFFFF
      [(0x0100, [0x50, 0x10, 0x00]), (0x1000, [0xAB])])) =
      some (none, [0x1234AB, 0x000000, 0x000000, 0x000103, 0xFFFFFF]) := by decide

/-- V-L12: `LDCH 1000,X`. -/
theorem test_step_ldch_indexed :
    see (step (start 0x000100 0xFFFFFF 0x000002 0x000000 0xFFFFFF
      [(0x0100, [0x50, 0x90, 0x00]), (0x1000, [0x01, 0x02, 0x03])])) =
      some (none, [0xFFFF03, 0x000002, 0x000000, 0x000103, 0xFFFFFF]) := by decide

/-- V-L13: `STA 1000`. -/
theorem test_step_sta :
    see (step (start 0x000100 0x123456 0x000000 0x000000 0xFFFFFF
      [(0x0100, [0x0C, 0x10, 0x00])])) =
      some (none, [0x123456, 0x000000, 0x000000, 0x000103, 0xFFFFFF]) ∧
    seeBytes (step (start 0x000100 0x123456 0x000000 0x000000 0xFFFFFF
      [(0x0100, [0x0C, 0x10, 0x00])]))
      [0x0FFF, 0x1000, 0x1001, 0x1002, 0x1003] = some [0xFF, 0x12, 0x34, 0x56, 0xFF] := by decide

/-- V-L15: `STA 7FFE`. -/
theorem test_step_sta_short :
    see (step (start 0x000100 0x123456 0x000000 0x000000 0xFFFFFF
      [(0x0100, [0x0C, 0x7F, 0xFE])])) =
      some ((some (.addressRangeFault 32768)), [0x123456, 0x000000, 0x000000, 0x000103, 0xFFFFFF]) ∧
    seeBytes (step (start 0x000100 0x123456 0x000000 0x000000 0xFFFFFF
      [(0x0100, [0x0C, 0x7F, 0xFE])]))
      [0x7FFE, 0x7FFF] = some [0xFF, 0xFF] := by decide

/-- V-L18: `STL 1000`. -/
theorem test_step_stl :
    see (step (start 0x000100 0x000000 0x000000 0x000106 0xFFFFFF
      [(0x0100, [0x14, 0x10, 0x00])])) =
      some (none, [0x000000, 0x000000, 0x000106, 0x000103, 0xFFFFFF]) ∧
    seeBytes (step (start 0x000100 0x000000 0x000000 0x000106 0xFFFFFF
      [(0x0100, [0x14, 0x10, 0x00])]))
      [0x1000, 0x1001, 0x1002] = some [0x00, 0x01, 0x06] := by decide

/-- V-L26: `STL 7FFE`. -/
theorem test_step_stl_short :
    see (step (start 0x000100 0x000000 0x000000 0x010203 0xFFFFFF
      [(0x0100, [0x14, 0x7F, 0xFE])])) =
      some ((some (.addressRangeFault 32768)), [0x000000, 0x000000, 0x010203, 0x000103, 0xFFFFFF]) ∧
    seeBytes (step (start 0x000100 0x000000 0x000000 0x010203 0xFFFFFF
      [(0x0100, [0x14, 0x7F, 0xFE])]))
      [0x7FFE, 0x7FFF] = some [0xFF, 0xFF] := by decide

/-- V-L19: `STX 1000,X`. -/
theorem test_step_stx_indexed :
    see (step (start 0x000100 0x000000 0x000010 0x000000 0xFFFFFF
      [(0x0100, [0x10, 0x90, 0x00])])) =
      some (none, [0x000000, 0x000010, 0x000000, 0x000103, 0xFFFFFF]) ∧
    seeBytes (step (start 0x000100 0x000000 0x000010 0x000000 0xFFFFFF
      [(0x0100, [0x10, 0x90, 0x00])]))
      [0x1010, 0x1011, 0x1012] = some [0x00, 0x00, 0x10] := by decide

/-- V-L24: `STX 7FFE`. -/
theorem test_step_stx_short :
    see (step (start 0x000100 0x000000 0x000000 0x000000 0xFFFFFF
      [(0x0100, [0x10, 0x7F, 0xFE])])) =
      some ((some (.addressRangeFault 32768)), [0x000000, 0x000000, 0x000000, 0x000103, 0xFFFFFF]) ∧
    seeBytes (step (start 0x000100 0x000000 0x000000 0x000000 0xFFFFFF
      [(0x0100, [0x10, 0x7F, 0xFE])]))
      [0x7FFE, 0x7FFF] = some [0xFF, 0xFF] := by decide

/-- V-L20: `STSW 1000`. -/
theorem test_step_stsw :
    see (step (start 0x000100 0x000000 0x000000 0x000000 0x000080
      [(0x0100, [0xE8, 0x10, 0x00])])) =
      some (none, [0x000000, 0x000000, 0x000000, 0x000103, 0x000080]) ∧
    seeBytes (step (start 0x000100 0x000000 0x000000 0x000000 0x000080
      [(0x0100, [0xE8, 0x10, 0x00])]))
      [0x1000, 0x1001, 0x1002] = some [0x00, 0x00, 0x80] := by decide

/-- V-L21: `STSW 1000`. -/
theorem test_step_stsw_reset :
    see (step (start 0x000100 0x000000 0x000000 0x000000 0xFFFFFF
      [(0x0100, [0xE8, 0x10, 0x00])])) =
      some (none, [0x000000, 0x000000, 0x000000, 0x000103, 0xFFFFFF]) ∧
    seeBytes (step (start 0x000100 0x000000 0x000000 0x000000 0xFFFFFF
      [(0x0100, [0xE8, 0x10, 0x00])]))
      [0x1000, 0x1001, 0x1002] = some [0xFF, 0xFF, 0xFF] := by decide

/-- V-L22: `STCH 1000`. -/
theorem test_step_stch :
    see (step (start 0x000100 0x123456 0x000000 0x000000 0xFFFFFF
      [(0x0100, [0x54, 0x10, 0x00])])) =
      some (none, [0x123456, 0x000000, 0x000000, 0x000103, 0xFFFFFF]) ∧
    seeBytes (step (start 0x000100 0x123456 0x000000 0x000000 0xFFFFFF
      [(0x0100, [0x54, 0x10, 0x00])]))
      [0x0FFF, 0x1000, 0x1001] = some [0xFF, 0x56, 0xFF] := by decide

/-- V-L23: `STCH 7FFF`. -/
theorem test_step_stch_last :
    see (step (start 0x000100 0x123456 0x000000 0x000000 0xFFFFFF
      [(0x0100, [0x54, 0x7F, 0xFF])])) =
      some (none, [0x123456, 0x000000, 0x000000, 0x000103, 0xFFFFFF]) ∧
    seeBytes (step (start 0x000100 0x123456 0x000000 0x000000 0xFFFFFF
      [(0x0100, [0x54, 0x7F, 0xFF])]))
      [0x7FFE, 0x7FFF] = some [0xFF, 0x56] := by decide

/-- V-A43: `ADD 0FFE,X`. -/
theorem test_step_add_indexed :
    see (step (start 0x000100 0x000001 0x000002 0x000000 0xFFFFFF
      [(0x0100, [0x18, 0x8F, 0xFE]), (0x1000, [0x00, 0x00, 0x09])])) =
      some (none, [0x00000A, 0x000002, 0x000000, 0x000103, 0xFFFFFF]) := by decide

/-- V-A2: `ADD 1000`. -/
theorem test_step_add_range :
    see (step (start 0x000100 0x7FFFFF 0x000000 0x000000 0xFFFFFF
      [(0x0100, [0x18, 0x10, 0x00]), (0x1000, [0x00, 0x00, 0x01])])) =
      some ((some (.arithmeticRangeFault .add)), [0x7FFFFF, 0x000000, 0x000000, 0x000103, 0xFFFFFF]) := by decide

/-- V-A10: `SUB 1000`. -/
theorem test_step_sub :
    see (step (start 0x000100 0xFFFFFF 0x000000 0x000000 0xFFFFFF
      [(0x0100, [0x1C, 0x10, 0x00]), (0x1000, [0x80, 0x00, 0x00])])) =
      some (none, [0x7FFFFF, 0x000000, 0x000000, 0x000103, 0xFFFFFF]) := by decide

/-- V-A9: `SUB 1000`. -/
theorem test_step_sub_range :
    see (step (start 0x000100 0x000000 0x000000 0x000000 0xFFFFFF
      [(0x0100, [0x1C, 0x10, 0x00]), (0x1000, [0x80, 0x00, 0x00])])) =
      some ((some (.arithmeticRangeFault .sub)), [0x000000, 0x000000, 0x000000, 0x000103, 0xFFFFFF]) := by decide

/-- V-A13: `MUL 1000`. -/
theorem test_step_mul :
    see (step (start 0x000100 0x001000 0x000000 0x000000 0xFFFFFF
      [(0x0100, [0x20, 0x10, 0x00]), (0x1000, [0xFF, 0xF8, 0x00])])) =
      some (none, [0x800000, 0x000000, 0x000000, 0x000103, 0xFFFFFF]) := by decide

/-- V-A14: `MUL 1000`. -/
theorem test_step_mul_range :
    see (step (start 0x000100 0xFFFFFF 0x000000 0x000000 0xFFFFFF
      [(0x0100, [0x20, 0x10, 0x00]), (0x1000, [0x80, 0x00, 0x00])])) =
      some ((some (.arithmeticRangeFault .mul)), [0xFFFFFF, 0x000000, 0x000000, 0x000103, 0xFFFFFF]) := by decide

/-- V-A18: `DIV 1000`. -/
theorem test_step_div_toward_zero :
    see (step (start 0x000100 0xFFFFF9 0x000000 0x000000 0xFFFFFF
      [(0x0100, [0x24, 0x10, 0x00]), (0x1000, [0x00, 0x00, 0x02])])) =
      some (none, [0xFFFFFD, 0x000000, 0x000000, 0x000103, 0xFFFFFF]) := by decide

/-- V-A27: `DIV 1000`. -/
theorem test_step_div_zero :
    see (step (start 0x000100 0x800000 0x000000 0x000000 0xFFFFFF
      [(0x0100, [0x24, 0x10, 0x00]), (0x1000, [0x00, 0x00, 0x00])])) =
      some ((some .divisionByZeroFault), [0x800000, 0x000000, 0x000000, 0x000103, 0xFFFFFF]) := by decide

/-- V-A28: `AND 1000`. -/
theorem test_step_and :
    see (step (start 0x000100 0xF0F0F0 0x000000 0x000000 0xFFFFFF
      [(0x0100, [0x40, 0x10, 0x00]), (0x1000, [0xFF, 0x00, 0xFF])])) =
      some (none, [0xF000F0, 0x000000, 0x000000, 0x000103, 0xFFFFFF]) := by decide

/-- V-A29: `AND 1000`. -/
theorem test_step_and_unwritten :
    see (step (start 0x000100 0x123456 0x000000 0x000000 0xFFFFFF
      [(0x0100, [0x40, 0x10, 0x00])])) =
      some (none, [0x123456, 0x000000, 0x000000, 0x000103, 0xFFFFFF]) := by decide

/-- V-A31: `OR 1000`. -/
theorem test_step_or :
    see (step (start 0x000100 0xF0F0F0 0x000000 0x000000 0xFFFFFF
      [(0x0100, [0x44, 0x10, 0x00]), (0x1000, [0x0F, 0x00, 0x0F])])) =
      some (none, [0xFFF0FF, 0x000000, 0x000000, 0x000103, 0xFFFFFF]) := by decide

/-- V-A32: `OR 1000`. -/
theorem test_step_or_unwritten :
    see (step (start 0x000100 0x123456 0x000000 0x000000 0xFFFFFF
      [(0x0100, [0x44, 0x10, 0x00])])) =
      some (none, [0xFFFFFF, 0x000000, 0x000000, 0x000103, 0xFFFFFF]) := by decide

/-- V-A36: `COMP 1000`. -/
theorem test_step_comp_signed :
    see (step (start 0x000100 0xFFFFFF 0x000000 0x000000 0xFFFFFF
      [(0x0100, [0x28, 0x10, 0x00]), (0x1000, [0x00, 0x00, 0x01])])) =
      some (none, [0xFFFFFF, 0x000000, 0x000000, 0x000103, 0x000000]) := by decide

/-- V-A41: `COMP 7FFF`. -/
theorem test_step_comp_short :
    see (step (start 0x000100 0x000005 0x000000 0x000000 0x000040
      [(0x0100, [0x28, 0x7F, 0xFF])])) =
      some ((some (.addressRangeFault 32768)), [0x000005, 0x000000, 0x000000, 0x000103, 0x000040]) := by decide

/-- V-J7: `J 1FF0,X`. -/
theorem test_step_j_indexed :
    see (step (start 0x000100 0x000000 0x000010 0x000000 0xFFFFFF
      [(0x0100, [0x3C, 0x9F, 0xF0])])) =
      some (none, [0x000000, 0x000010, 0x000000, 0x002000, 0xFFFFFF]) := by decide

/-- V-J5: `J 0100,X`. -/
theorem test_step_j_outside :
    see (step (start 0x000100 0x000000 0xFFFFFF 0x000000 0xFFFFFF
      [(0x0100, [0x3C, 0x81, 0x00])])) =
      some ((some (.addressRangeFault 16777471)), [0x000000, 0xFFFFFF, 0x000000, 0x000100, 0xFFFFFF]) := by decide

/-- V-J9: `JEQ 2000`. -/
theorem test_step_jeq_taken :
    see (step (start 0x000100 0x000000 0x000000 0x000000 0x000040
      [(0x0100, [0x30, 0x20, 0x00])])) =
      some (none, [0x000000, 0x000000, 0x000000, 0x002000, 0x000040]) := by decide

/-- V-J11: `JEQ 2000`. -/
theorem test_step_jeq_reset :
    see (step (start 0x000100 0x000000 0x000000 0x000000 0xFFFFFF
      [(0x0100, [0x30, 0x20, 0x00])])) =
      some (none, [0x000000, 0x000000, 0x000000, 0x000103, 0xFFFFFF]) := by decide

/-- V-J15: `JGT 2000`. -/
theorem test_step_jgt_taken :
    see (step (start 0x000100 0x000000 0x000000 0x000000 0x000080
      [(0x0100, [0x34, 0x20, 0x00])])) =
      some (none, [0x000000, 0x000000, 0x000000, 0x002000, 0x000080]) := by decide

/-- V-J14: `JGT 2000`. -/
theorem test_step_jgt_equal :
    see (step (start 0x000100 0x000000 0x000000 0x000000 0x000040
      [(0x0100, [0x34, 0x20, 0x00])])) =
      some (none, [0x000000, 0x000000, 0x000000, 0x000103, 0x000040]) := by decide

/-- V-J18: `JLT 2000`. -/
theorem test_step_jlt_taken :
    see (step (start 0x000100 0x000000 0x000000 0x000000 0x000000
      [(0x0100, [0x38, 0x20, 0x00])])) =
      some (none, [0x000000, 0x000000, 0x000000, 0x002000, 0x000000]) := by decide

/-- V-J22: `JLT 2000`. -/
theorem test_step_jlt_no_code :
    see (step (start 0x000100 0x000000 0x000000 0x000000 0x000001
      [(0x0100, [0x38, 0x20, 0x00])])) =
      some (none, [0x000000, 0x000000, 0x000000, 0x000103, 0x000001]) := by decide

/-- V-J24: `JSUB 2000`. -/
theorem test_step_jsub :
    see (step (start 0x000100 0x000000 0x000000 0x111111 0xFFFFFF
      [(0x0100, [0x48, 0x20, 0x00])])) =
      some (none, [0x000000, 0x000000, 0x000103, 0x002000, 0xFFFFFF]) := by decide

/-- V-J26: `JSUB 7FFF,X`. -/
theorem test_step_jsub_outside :
    see (step (start 0x000100 0x000000 0x000001 0x111111 0xFFFFFF
      [(0x0100, [0x48, 0xFF, 0xFF])])) =
      some ((some (.addressRangeFault 32768)), [0x000000, 0x000001, 0x111111, 0x000100, 0xFFFFFF]) := by decide

/-- V-J28: `RSUB`. -/
theorem test_step_rsub_unchecked :
    see (step (start 0x000100 0x000000 0x000000 0xFFFFFF 0xFFFFFF
      [(0x0100, [0x4C, 0x00, 0x00])])) =
      some (none, [0x000000, 0x000000, 0xFFFFFF, 0xFFFFFF, 0xFFFFFF]) := by decide

/-- V-J29: `RSUB (field FFFF)`. -/
theorem test_step_rsub_outside :
    see (step (start 0x000100 0x000000 0x000001 0x000106 0xFFFFFF
      [(0x0100, [0x4C, 0xFF, 0xFF])])) =
      some ((some (.addressRangeFault 32768)), [0x000000, 0x000001, 0x000106, 0x000100, 0xFFFFFF]) := by decide

/-- V-T10: `TIX 1000,X`. -/
theorem test_step_tix_old_x :
    see (step (start 0x000100 0x000000 0x000003 0x000000 0xFFFFFF
      [(0x0100, [0x2C, 0x90, 0x00]), (0x1003, [0x00, 0x00, 0x04])])) =
      some (none, [0x000000, 0x000004, 0x000000, 0x000103, 0x000040]) := by decide

/-- V-T6: `TIX 1000`. -/
theorem test_step_tix_unsigned :
    see (step (start 0x000100 0x000000 0x7FFFFF 0x000000 0xFFFFFF
      [(0x0100, [0x2C, 0x10, 0x00]), (0x1000, [0x7F, 0xFF, 0xFF])])) =
      some (none, [0x000000, 0x800000, 0x000000, 0x000103, 0x000080]) := by decide

/-- V-D1: `RD 00F1`. -/
theorem test_step_rd :
    see (step (start 0x000100 0x123456 0x000000 0x000000 0x000040
      [(0x0100, [0xD8, 0x00, 0xF1])])) =
      some (none, [0x123456, 0x000000, 0x000000, 0x000103, 0x000040]) ∧
    seeBytes (step (start 0x000100 0x123456 0x000000 0x000000 0x000040
      [(0x0100, [0xD8, 0x00, 0xF1])]))
      [0x00F1] = some [0xFF] := by decide

/-- V-D5: `RD 7FFF`. -/
theorem test_step_rd_last :
    see (step (start 0x000100 0x123456 0x000000 0x000000 0x000040
      [(0x0100, [0xD8, 0x7F, 0xFF])])) =
      some (none, [0x123456, 0x000000, 0x000000, 0x000103, 0x000040]) := by decide

/-- V-D2: `WD 00F1`. -/
theorem test_step_wd :
    see (step (start 0x000100 0x123456 0x000000 0x000000 0x000040
      [(0x0100, [0xDC, 0x00, 0xF1])])) =
      some (none, [0x123456, 0x000000, 0x000000, 0x000103, 0x000040]) ∧
    seeBytes (step (start 0x000100 0x123456 0x000000 0x000000 0x000040
      [(0x0100, [0xDC, 0x00, 0xF1])]))
      [0x00F1] = some [0xFF] := by decide

/-- V-D6: `WD 0000,X`. -/
theorem test_step_wd_indexed :
    see (step (start 0x000100 0x123456 0x007FFF 0x000000 0xFFFFFF
      [(0x0100, [0xDC, 0x80, 0x00])])) =
      some (none, [0x123456, 0x007FFF, 0x000000, 0x000103, 0xFFFFFF]) := by decide

/-- V-D3: `TD 00F1`. -/
theorem test_step_td :
    see (step (start 0x000100 0x123456 0x000000 0x000000 0x000040
      [(0x0100, [0xE0, 0x00, 0xF1])])) =
      some (none, [0x123456, 0x000000, 0x000000, 0x000103, 0x000040]) ∧
    seeBytes (step (start 0x000100 0x123456 0x000000 0x000000 0x000040
      [(0x0100, [0xE0, 0x00, 0xF1])]))
      [0x00F1] = some [0xFF] := by decide

/-- V-D4: `TD 7FFF,X`. -/
theorem test_step_td_outside :
    see (step (start 0x000100 0x000000 0x000001 0x000000 0xFFFFFF
      [(0x0100, [0xE0, 0xFF, 0xFF])])) =
      some ((some (.addressRangeFault 32768)), [0x000000, 0x000001, 0x000000, 0x000100, 0xFFFFFF]) := by decide

/-- V-H4: `XOS at 7FFD`. -/
theorem test_step_xos_last :
    see (step (start 0x007FFD 0x000000 0x000000 0x000000 0xFFFFFF
      [(0x7FFD, [0xFF, 0x00, 0x00])])) =
      some ((some .normalHalt), [0x000000, 0x000000, 0x000000, 0x008000, 0xFFFFFF]) := by decide

/-- V-H2: `XOS (field FFFF)`. -/
theorem test_step_xos_outside :
    see (step (start 0x000100 0x000000 0x000001 0x000000 0xFFFFFF
      [(0x0100, [0xFF, 0xFF, 0xFF])])) =
      some ((some (.addressRangeFault 32768)), [0x000000, 0x000001, 0x000000, 0x000100, 0xFFFFFF]) := by decide

/-! ## Fetch and the order of its faults -/

/-- V-F1: `-`. -/
theorem test_step_pc_32768 :
    see (step (start 0x008000 0x000000 0x000000 0x000000 0xFFFFFF
      [])) =
      some ((some (.programCounterFault (32768#24))), [0x000000, 0x000000, 0x000000, 0x008000, 0xFFFFFF]) := by decide

/-- V-F4: `LDA ..`. -/
theorem test_step_operand_short :
    see (step (start 0x007FFF 0x000000 0x000000 0x000000 0xFFFFFF
      [(0x7FFF, [0x00])])) =
      some ((some (.addressRangeFault 32768)), [0x000000, 0x000000, 0x000000, 0x007FFF, 0xFFFFFF]) := by decide

/-- V-F5: `-`. -/
theorem test_step_unknown_at_end :
    see (step (start 0x007FFE 0x000000 0x000000 0x000000 0xFFFFFF
      [(0x7FFE, [0x01])])) =
      some ((some (.unrecognizedOpcodeFault 32766 0x01#8)), [0x000000, 0x000000, 0x000000, 0x007FFE, 0xFFFFFF]) := by decide

/-- V-F7: `(unwritten)`. -/
theorem test_step_unwritten :
    see (step (start 0x000500 0x000000 0xFFFFFF 0x000000 0xFFFFFF
      [])) =
      some ((some (.addressRangeFault 16809982)), [0x000000, 0xFFFFFF, 0x000000, 0x000500, 0xFFFFFF]) := by decide

/-- V-F15: `LDA 7FFD at 7FFD`. -/
theorem test_step_last_instruction :
    see (step (start 0x007FFD 0x000000 0x000000 0x000000 0xFFFFFF
      [(0x7FFD, [0x00, 0x7F, 0xFD])])) =
      some (none, [0x007FFD, 0x000000, 0x000000, 0x008000, 0xFFFFFF]) := by decide

/-- P6: the first step after reset. -/
theorem test_step_reset : see (step State.reset) =
    some (some (.programCounterFault 0xFFFFFF),
      [0xFFFFFF, 0xFFFFFF, 0xFFFFFF, 0xFFFFFF, 0xFFFFFF]) := by decide

/-- The word placed at reset is what the next step runs (`LDA 1000` from unwritten memory, R38). -/
theorem test_step_placed : see (step (State.reset.withFetchWord 24 0x001000)) =
    some (none, [0xFFFFFF, 0xFFFFFF, 0xFFFFFF, 0x000003, 0xFFFFFF]) := by decide

/-! ## The host port -/

/-- What `load` gives: the bytes at addresses, or the fault. -/
def seeLoad (r : Except HaltReason State) (as : List Nat) : HaltReason ⊕ List Byte :=
  match r with
  | .ok s => .inr (as.map s.mem.byteAt)
  | .error e => .inl e

/-- S11, V-M3. -/
theorem test_load_overlap : seeLoad (load defaultConfig
    [⟨0x1000, [0xAA, 0xBB, 0xCC]⟩, ⟨0x1002, [0xFF]⟩]) [0x0FFF, 0x1000, 0x1001, 0x1002, 0x1003] =
    .inr [0xFF, 0xAA, 0xBB, 0xFF, 0xFF] := by decide

/-- V-M6. -/
theorem test_load_fault : seeLoad (load defaultConfig
    [⟨0x0000, [0x00, 0x10, 0x00]⟩, ⟨0x7FFF, [0x01, 0x02]⟩]) [] =
    .inl (.addressRangeFault 32768) := by decide

/-- The value a textual write leaves in A, or the fault. -/
def seeSet (r : Except HaltReason State) : HaltReason ⊕ Word :=
  match r with
  | .ok s => .inr s.a
  | .error e => .inl e

/-- S4: "00abCD", "ABCD", "00ABCG" and their views. -/
theorem test_hex_port :
    seeSet (setFromHex State.reset .A ['0', '0', 'a', 'b', 'C', 'D']) = .inr 0x00ABCD ∧
    seeSet (setFromHex State.reset .A ['A', 'B', 'C', 'D']) = .inl .registerFormatFault ∧
    seeSet (setFromHex State.reset .A ['0', '0', 'A', 'B', 'C', 'G']) = .inl .registerFormatFault ∧
    asHex 0x00ABCD = ['0', '0', 'A', 'B', 'C', 'D'] ∧
    asBinary 0x00ABCD = ['0', '0', '0', '0', '0', '0', '0', '0', '1', '0', '1', '0', '1', '0', '1',
      '1', '1', '1', '0', '0', '1', '1', '0', '1'] := by decide

/-- R311: a row of the memory dump of a fresh context. -/
theorem test_dump_row : dumpRow State.reset.mem 0x7FF0 =
    ⟨['7', 'F', 'F', '0'], List.replicate 4 (List.replicate 4 ['F', 'F'])⟩ := by decide

/-- R310: the line of PC after reset. -/
theorem test_dump_pc : (dumpRegisters State.reset)[3]? = some
    ⟨['P', 'C'], List.replicate 3 ['F', 'F'],
      List.replicate 3 (List.replicate 2 ['1', '1', '1', '1'])⟩ := by decide

/-! ## Witnesses: states and operands that meet the hypotheses of each statement

Each is at the boundary of its clause: 32765 is the last word address, 32767 the last address. -/

/-- The last word address, direct. -/
def lastWord : Operand := ⟨false, 32765⟩

/-- The last address, direct. -/
def lastByte : Operand := ⟨false, 32767⟩

/-- A state with A, and a word at the last word address. -/
def withLast (a : Word) (b0 b1 b2 : Byte) : State :=
  start 0x000100 a 0 0 0xFFFFFF [(32765, [b0, b1, b2])]

/-- A context with a record that ends at the last address. -/
def loadedEnd : State :=
  setMem (State.fresh defaultConfig) [(32765, 1#8), (32766, 2#8), (32767, 3#8)]

theorem test_hyp_ConstructionSetsEveryRegisterToAllOnes :
    load defaultConfig [⟨32765, [1#8, 2#8, 3#8]⟩] = .ok loadedEnd := rfl

theorem test_hyp_UncoveredCellsReadAllOnes :
    load defaultConfig [⟨32765, [1#8, 2#8, 3#8]⟩] = .ok loadedEnd ∧ 32764 ≤ 32767 ∧
    ∀ r ∈ [(⟨32765, [1#8, 2#8, 3#8]⟩ : TextRecord)], ¬ covers r 32764 :=
  ⟨rfl, by decide, by simp [covers]⟩

theorem test_hyp_LastRecordCoveringAnAddressWins :
    load defaultConfig ([⟨32765, [1#8, 2#8, 9#8]⟩] ++ ⟨32766, [2#8, 3#8]⟩ :: [⟨0, []⟩]) =
      .ok loadedEnd ∧
    [2#8, 3#8][1]? = some (3#8 : Byte) ∧
    ∀ q ∈ [(⟨0, []⟩ : TextRecord)], ¬ covers q (32766 + 1) :=
  ⟨rfl, rfl, by simp [covers]⟩

theorem test_hyp_LoadFailsExactlyPastTheLastAddress :
    (∀ r ∈ [(⟨32767, [1#8]⟩ : TextRecord)], r.wf ∧ r.startAddress + r.bytes.length ≤ 32768) ∧
    (∀ r ∈ [(⟨32767, [1#8, 2#8]⟩ : TextRecord)], r.wf) ∧
    (∃ r ∈ [(⟨32767, [1#8, 2#8]⟩ : TextRecord)], 32768 < r.startAddress + r.bytes.length) ∧
    32767 < 32768 := by decide

theorem test_hyp_WriteByteThenReadByte : 32767 < 32768 ∧ 32767 ≤ 32767 ∧ 32766 ≠ 32767 := by decide

theorem test_hyp_ReadBytesConcatenatesReadByte :
    (0 < 1 ∧ 32767 + 1 ≤ 32768) ∧ (0 < 2 ∧ 32768 < 32767 + 2) := by decide

theorem test_hyp_WordAccessesAreBigEndianAndAllOrNothing :
    32765 ≤ 32765 ∧ (32764 < 32765 ∨ 32765 + 3 ≤ 32764) ∧ 32765 < 32766 ∧ 32765 < 32769 := by decide

theorem test_hyp_MemoriesThatReadAlikeAreEqual :
    Memory.wf loadedEnd.mem ∧ ∀ a, a ≤ 32767 → readByte loadedEnd.mem a = readByte loadedEnd.mem a :=
  ⟨by decide, fun _ _ => rfl⟩

theorem test_hyp_SignedReadingAndEncodingAreInverse :
    ((-8388608 : Int) ≤ -8388608 ∧ (-8388608 : Int) ≤ 8388607) ∧
    ((-8388608 : Int) ≤ 8388607 ∧ (8388607 : Int) ≤ 8388607) := by decide

theorem test_hyp_DecodeOfEncodeIsTheInstruction :
    defaultConfig.wf ∧ Instr.wf (.stsw ⟨true, 32767⟩) := by decide

theorem test_hyp_EncodeOfDecodeIsTheBytes : defaultConfig.wf ∧
    decode defaultConfig (0xE8#8 :: 0xFF#8 :: 0xFF#8 :: [7#8]) = .ok (.stsw ⟨true, 32767⟩, [7#8]) :=
  ⟨by decide, rfl⟩

theorem test_hyp_IllegalOpcodeBytesNumber229 : defaultConfig.wf := by decide

/-- `TIX 7FFD` as the last instruction of memory; its operand is itself. -/
def tixAtEnd : State := start 32765 0 0 0 0 [(32765, [0x2C, 0x7F, 0xFD])]

theorem test_hyp_StepRunsTheDecodedInstruction : tixAtEnd.pc.toNat ≤ 32765 ∧
    decode tixAtEnd.cfg [tixAtEnd.mem.byteAt tixAtEnd.pc.toNat,
      tixAtEnd.mem.byteAt (tixAtEnd.pc.toNat + 1), tixAtEnd.mem.byteAt (tixAtEnd.pc.toNat + 2)] =
      .ok (.tix lastWord, []) := ⟨by decide, rfl⟩

theorem test_hyp_PlacedWordRunsNext : State.reset.cfg = defaultConfig ∧
    decodeTableWord 24 0x2C7FFD = some (.tix lastWord) := by decide

theorem test_hyp_ProgramCounterFaultExactlyAbove32767 :
    32767 < (start 32768 0 0 0 0 []).pc.toNat ∧
    step (start 32768 0 0 0 0 []) =
      .fault (.halt (.programCounterFault 32768) (start 32768 0 0 0 0 [])) := ⟨by decide, rfl⟩

/-- The byte 0x01, which is in no row, at the last address. -/
def unknownAtEnd : State := start 32767 0 0 0 0 [(32767, [0x01])]

theorem test_hyp_UnrecognizedOpcodeFaultExactlyOnUnknownByte :
    (unknownAtEnd.pc.toNat ≤ 32767 ∧
      lookupOpcode unknownAtEnd.cfg (unknownAtEnd.mem.byteAt unknownAtEnd.pc.toNat) = none) ∧
    step unknownAtEnd = .fault (.halt (.unrecognizedOpcodeFault 32767 0x01) unknownAtEnd) :=
  ⟨by decide, rfl⟩

/-- A legal opcode byte at one of the two last addresses. -/
def opcodeAt (p : Word) : State := start p 0 0 0 0 [(p.toNat, [0x2C])]

theorem test_hyp_OperandFieldFetch :
    (tixAtEnd.pc.toNat ≤ 32765 ∧
      lookupOpcode tixAtEnd.cfg (tixAtEnd.mem.byteAt tixAtEnd.pc.toNat) = some .tix) ∧
    ((opcodeAt 32766).pc.toNat = 32766 ∧ lookupOpcode (opcodeAt 32766).cfg
      ((opcodeAt 32766).mem.byteAt (opcodeAt 32766).pc.toNat) = some .tix) ∧
    ((opcodeAt 32767).pc.toNat = 32767 ∧ lookupOpcode (opcodeAt 32767).cfg
      ((opcodeAt 32767).mem.byteAt (opcodeAt 32767).pc.toNat) = some .tix) := by decide

theorem test_hyp_OutOfRangeOperandHaltsEveryInstruction :
    32768 = (Instr.wd ⟨true, 32767⟩).operand.magnitude +
      (if (Instr.wd ⟨true, 32767⟩).operand.indexed then (start 0 0 1 0 0 []).x.toNat else 0) ∧
    32767 < 32768 := by decide

/-- `ADD 7FFF` at 0100: a halt of step 5. -/
def addShort : State := start 0x000100 5 0 0 0xFFFFFF [(0x0100, [0x18, 0x7F, 0xFF])]

theorem test_hyp_HaltLeavesTheDocumentedState :
    step addShort = .fault (.halt (.addressRangeFault 32768) (pcAdvanced addShort)) ∧
    step unknownAtEnd = .fault (.halt (.unrecognizedOpcodeFault 32767 0x01) unknownAtEnd) := ⟨rfl, rfl⟩

/-- `XOS` at 0100. -/
def xosState : State := start 0x000100 0 0 0 0xFFFFFF [(0x0100, [0xFF, 0x00, 0x00])]

theorem test_hyp_NormalHaltExactlyFromXos :
    step xosState = .fault (.halt .normalHalt (pcAdvanced xosState)) ∧
    fetch xosState = .ok (.xos ⟨false, 0⟩) ∧ effectiveAddress ⟨false, 0⟩ xosState ≤ 32767 :=
  ⟨rfl, rfl, by decide⟩

/-- An instruction byte at 0100 with operand field 7FFD, and a word there. -/
def arithAt (op : Byte) (a : Word) (b0 b1 b2 : Byte) : State :=
  start 0x000100 a 0 0 0xFFFFFF [(0x0100, [op, 0x7F, 0xFD]), (32765, [b0, b1, b2])]

theorem test_hyp_ArithmeticFaultsOnlyFromTheirInstructions :
    step (arithAt 0x18 0x7FFFFF 0 0 1) =
      .fault (.halt (.arithmeticRangeFault .add) (pcAdvanced (arithAt 0x18 0x7FFFFF 0 0 1))) ∧
    step (arithAt 0x1C 0x800000 0 0 1) =
      .fault (.halt (.arithmeticRangeFault .sub) (pcAdvanced (arithAt 0x1C 0x800000 0 0 1))) ∧
    step (arithAt 0x20 0x800000 0xFF 0xFF 0xFF) = .fault (.halt (.arithmeticRangeFault .mul)
      (pcAdvanced (arithAt 0x20 0x800000 0xFF 0xFF 0xFF))) ∧
    step (arithAt 0x24 0x800000 0xFF 0xFF 0xFF) = .fault (.halt (.arithmeticRangeFault .div)
      (pcAdvanced (arithAt 0x24 0x800000 0xFF 0xFF 0xFF))) ∧
    step (arithAt 0x24 0x800000 0 0 0) =
      .fault (.halt .divisionByZeroFault (pcAdvanced (arithAt 0x24 0x800000 0 0 0))) ∧
    (fetch (arithAt 0x24 0x800000 0 0 0) = .ok (.div lastWord) ∧
      effectiveAddress lastWord (arithAt 0x24 0x800000 0 0 0) ≤ 32765 ∧
      wordAt (arithAt 0x24 0x800000 0 0 0).mem
        (effectiveAddress lastWord (arithAt 0x24 0x800000 0 0 0)) = 0#24) :=
  ⟨rfl, rfl, rfl, rfl, rfl, rfl, by decide, by decide⟩

theorem test_hyp_PcAdvanceNeverWraps : fetch tixAtEnd = .ok (.tix lastWord) := rfl

/-- The word the instructions of the witnesses read. -/
def lastOf (s : State) : Word := wordAt s.mem (effectiveAddress lastWord s)

theorem test_hyp_AddResult :
    effectiveAddress lastWord (withLast 0x7FFFFE 0 0 1) ≤ 32765 ∧
    sgn24 (withLast 0x7FFFFE 0 0 1).a + sgn24 (lastOf (withLast 0x7FFFFE 0 0 1)) = 8388607 ∧
    sgn24 (withLast 0x7FFFFF 0 0 1).a + sgn24 (lastOf (withLast 0x7FFFFF 0 0 1)) = 8388608 ∧
    sgn24 (withLast 0x800000 0xFF 0xFF 0xFF).a +
      sgn24 (lastOf (withLast 0x800000 0xFF 0xFF 0xFF)) = -8388609 := by decide

theorem test_hyp_SubResult :
    effectiveAddress lastWord (withLast 0x800001 0 0 1) ≤ 32765 ∧
    sgn24 (withLast 0x800001 0 0 1).a - sgn24 (lastOf (withLast 0x800001 0 0 1)) = -8388608 ∧
    sgn24 (withLast 0x800000 0 0 1).a - sgn24 (lastOf (withLast 0x800000 0 0 1)) = -8388609 ∧
    sgn24 (withLast 0 0x80 0 0).a - sgn24 (lastOf (withLast 0 0x80 0 0)) = 8388608 := by decide

theorem test_hyp_MulResult :
    effectiveAddress lastWord (withLast 0x001000 0xFF 0xF8 0) ≤ 32765 ∧
    sgn24 (withLast 0x001000 0xFF 0xF8 0).a * sgn24 (lastOf (withLast 0x001000 0xFF 0xF8 0)) =
      -8388608 ∧
    sgn24 (withLast 0x001000 0 8 0).a * sgn24 (lastOf (withLast 0x001000 0 8 0)) = 8388608 ∧
    sgn24 (withLast 0x800000 0 0 2).a * sgn24 (lastOf (withLast 0x800000 0 0 2)) = -16777216 := by
  decide

theorem test_hyp_DivResult :
    effectiveAddress lastWord (withLast 7 0 0 0) ≤ 32765 ∧ sgn24 (lastOf (withLast 7 0 0 0)) = 0 ∧
    Int.tdiv (sgn24 (withLast 0x800000 0 0 1).a) (sgn24 (lastOf (withLast 0x800000 0 0 1))) =
      -8388608 ∧
    Int.tdiv (sgn24 (withLast 0x800000 0xFF 0xFF 0xFF).a)
      (sgn24 (lastOf (withLast 0x800000 0xFF 0xFF 0xFF))) = 8388608 := by decide

theorem test_hyp_OnlyOneQuotientIsOutOfRange : (0xFFFFFF#24 : Word) ≠ 0#24 ∧
    ¬ inRange (quotient (sgn24 0x800000#24) (sgn24 0xFFFFFF#24)) ∧
    inRange (quotient (sgn24 0x800001#24) (sgn24 0xFFFFFF#24)) := by decide

theorem test_hyp_AndOrResult :
    effectiveAddress lastWord (withLast 7 1 2 3) ≤ 32765 ∧
    effectiveAddress ⟨true, 32764⟩ (start 0 0 1 0 0 []) ≤ 32765 := by decide

theorem test_hyp_CompResult : effectiveAddress lastWord (withLast 5 0 0 7) ≤ 32765 ∧
    sgn24 (withLast 0x800000 0x7F 0xFF 0xFF).a < sgn24 (lastOf (withLast 0x800000 0x7F 0xFF 0xFF)) ∧
    sgn24 (withLast 7 0 0 7).a = sgn24 (lastOf (withLast 7 0 0 7)) ∧
    sgn24 (lastOf (withLast 1 0xFF 0xFF 0xFF)) < sgn24 (withLast 1 0xFF 0xFF 0xFF).a := by decide

theorem test_hyp_WordLoadResult : effectiveAddress lastWord (withLast 0 1 2 3) ≤ 32765 := by decide

theorem test_hyp_LdchResult : effectiveAddress lastByte (withLast 0 1 2 3) ≤ 32767 := by decide

theorem test_hyp_WordStoreResult : effectiveAddress lastWord (withLast 9 1 2 3) ≤ 32765 ∧
    (Instr.sta lastWord = .sta lastWord ∧ (9#24 : Word) = (withLast 9 1 2 3).a) ∧
    (Instr.stsw lastWord = .stsw lastWord ∧ (0xFFFFFF#24 : Word) = (withLast 9 1 2 3).sw) ∧
    (32764 < effectiveAddress lastWord (withLast 9 1 2 3)) := by decide

theorem test_hyp_StchResult : effectiveAddress lastByte (withLast 0 1 2 3) ≤ 32767 ∧
    32766 ≠ effectiveAddress lastByte (withLast 0 1 2 3) := by decide

theorem test_hyp_WordAccessPastTheEndHalts :
    ((Instr.comp ⟨false, 32766⟩).mnemonic ∈ wordReaders ++ wordWriters ∧
      effectiveAddress (Instr.comp ⟨false, 32766⟩).operand xosState = 32766) ∧
    ((Instr.stx lastByte).mnemonic ∈ wordReaders ++ wordWriters ∧
      effectiveAddress (Instr.stx lastByte).operand xosState = 32767) := by decide

theorem test_hyp_JumpAndLinkageResult : effectiveAddress lastByte xosState ≤ 32767 ∧
    effectiveAddress ⟨true, 32767⟩ xosState ≤ 32767 := by decide

theorem test_hyp_ConditionalJumpResult : effectiveAddress lastByte xosState ≤ 32767 ∧
    xosState.sw ≠ xosState.cfg.swEq ∧ tixAtEnd.sw = tixAtEnd.cfg.swLt := by decide

/-- A state whose condition code is EQUAL. -/
def equalState : State := start 0x000100 0 0 0 0x000040 []

theorem test_hyp_AtMostOneConditionalJumpIsTaken :
    (xosState.cfg.wf ∧ xosState.sw = 0xFFFFFF#24 ∧
      exec (.jgt lastByte) xosState = .next (pcAdvanced xosState)) ∧
    (equalState.cfg.wf ∧
      Instr.jeq lastByte ∈ [Instr.jeq lastByte, .jgt lastByte, .jlt lastByte] ∧
      Instr.jgt lastByte ∈ [Instr.jeq lastByte, .jgt lastByte, .jlt lastByte] ∧
      Instr.jeq lastByte ≠ .jgt lastByte ∧
      exec (.jeq lastByte) equalState = .next { equalState with pc := 32767 } ∧
      { equalState with pc := 32767 } ≠ pcAdvanced equalState ∧
      effectiveAddress lastByte equalState ≤ 32767) :=
  ⟨⟨by decide, by decide, rfl⟩, by decide, by decide, by decide, by decide, rfl, by decide, by decide⟩

/-- A state with X and a word at the last word address, under a setting of `TIX_CMP`. -/
def tixState (c : Signedness) (x : Word) (b0 b1 b2 : Byte) : State :=
  { start 0x000100 0 x 0 0xFFFFFF [(32765, [b0, b1, b2])] with
    cfg := { defaultConfig with tixCmp := c } }

theorem test_hyp_TixResult : effectiveAddress lastWord (tixState .signed 0x7FFFFF 0x7F 0xFF 0xFF) ≤ 32765 ∧
    sgn24 ((tixState .signed 0x7FFFFF 0x7F 0xFF 0xFF).x + 1#24) <
      sgn24 (lastOf (tixState .signed 0x7FFFFF 0x7F 0xFF 0xFF)) ∧
    (lastOf (tixState .unsigned 0x7FFFFF 0x7F 0xFF 0xFF)).toNat <
      ((tixState .unsigned 0x7FFFFF 0x7F 0xFF 0xFF).x + 1#24).toNat ∧
    ((tixState .unsigned 0xFFFFFF 0 0 0).x + 1#24).toNat =
      (lastOf (tixState .unsigned 0xFFFFFF 0 0 0)).toNat ∧
    ((tixState .unsigned 0xFFFFFF 0 0 1).x + 1#24).toNat <
      (lastOf (tixState .unsigned 0xFFFFFF 0 0 1)).toNat ∧
    (tixState .signed 0 0 0 0).cfg.tixCmp = .signed ∧
    (tixState .unsigned 0 0 0 0).cfg.tixCmp = .unsigned := by decide

theorem test_hyp_DeviceInstructionsWithoutDeviceOnlyAdvancePc :
    effectiveAddress lastByte xosState ≤ 32767 ∧ xosState.cfg.device = .absent := by decide

/-- `RD 7FFF` at 0100 with a device attached. -/
def attachedState : State :=
  { start 0x000100 0 0 0 0 [(0x0100, [0xD8, 0x7F, 0xFF])] with
    cfg := { defaultConfig with device := .attached } }

theorem test_hyp_AttachedDeviceIsRefusedByName :
    effectiveAddress lastByte attachedState ≤ 32767 ∧ attachedState.cfg.device = .attached := by decide

theorem test_hyp_StepAnswersOnEveryContext : attachedState.cfg.device = .attached ∧
    fetch attachedState = .ok (.rd lastByte) ∧
    step attachedState = .refused (.deviceAttached .rd) := ⟨rfl, rfl, rfl⟩

theorem test_hyp_XosHaltsNormally : effectiveAddress lastByte xosState ≤ 32767 := by decide

/-- A completed `STCH 7FFF`. -/
theorem test_hyp_RegistersChangeOnlyByTheirWriters :
    exec (.stch lastByte) (withLast 9 1 2 3) =
      .next (setMem (advance (withLast 9 1 2 3)) [(32765, 1), (32766, 2), (32767, 9)]) ∧
    (Instr.stch lastByte).mnemonic ∉
      [Mnemonic.add, .sub, .mul, .div, .and, .or, .lda, .ldch] := ⟨rfl, by decide⟩

theorem test_hyp_PcAfterEachInstruction :
    exec (.jsub lastByte) xosState =
      .next (writeReg (writeReg (advance xosState) .L 0x000103) .PC 32767) := rfl

theorem test_hyp_MemoryChangesOnlyWhereStored :
    (exec (.stl lastWord) (withLast 9 1 2 3) =
      .next (setMem (advance (withLast 9 1 2 3)) [(32765, 0), (32766, 0), (32767, 0)]) ∧
      (Instr.stl lastWord).mnemonic ∈ wordWriters ∧
      32764 < effectiveAddress (Instr.stl lastWord).operand (withLast 9 1 2 3)) ∧
    ((Instr.stch lastByte).mnemonic = .stch ∧
      32766 ≠ effectiveAddress (Instr.stch lastByte).operand (withLast 9 1 2 3)) ∧
    ((Instr.jsub lastByte).mnemonic ∉ wordWriters ∧ (Instr.jsub lastByte).mnemonic ≠ .stch) :=
  ⟨⟨rfl, by decide, by decide⟩, by decide, by decide⟩

theorem test_hyp_ParametersNeverChange :
    stateAfter? (step xosState) = some (pcAdvanced xosState) := rfl

/-- P4's step 2: `STA 0306` at 0303, with A the bytes of `J 030C`. -/
def rewriting : State := start 0x000303 0x3C030C 0 0 0 [(0x0303, [0x0C, 0x03, 0x06])]

theorem test_hyp_StoredInstructionRunsNext : rewriting.pc.toNat + 6 ≤ 32768 ∧
    effectiveAddress ⟨false, 0x0306⟩ rewriting = rewriting.pc.toNat + 3 ∧
    exec (.sta ⟨false, 0x0306⟩) rewriting = .next (setMem (advance rewriting)
      [(0x0303, 0x0C), (0x0304, 0x03), (0x0305, 0x06), (0x0306, 0x3C), (0x0307, 0x03),
       (0x0308, 0x0C)]) ∧
    decode rewriting.cfg [rewriting.a.extractLsb' 16 8, rewriting.a.extractLsb' 8 8,
      rewriting.a.extractLsb' 0 8] = .ok (.j ⟨false, 0x030C⟩, []) := ⟨by decide, by decide, rfl, rfl⟩

theorem test_hyp_StepKeepsTheInvariant : Inv xosState ∧
    stateAfter? (step xosState) = some (pcAdvanced xosState) :=
  ⟨⟨by decide, by decide, .inl rfl⟩, rfl⟩

/-- A comparison completes from a state that holds a code. -/
def compState : State := start 0x000100 7 0 0 0x000040 [(0x0100, [0x28, 0x10, 0x00])]

theorem test_hyp_ConditionCodeStaysACode : swIsCode compState ∧
    stateAfter? (step compState) = some { compState with pc := 0x000103, sw := 0x000080 } :=
  ⟨.inr (.inl rfl), rfl⟩

theorem test_hyp_LoadEstablishesTheInvariant : defaultConfig.wf ∧
    load defaultConfig [⟨32765, [1#8, 2#8, 3#8]⟩] = .ok loadedEnd := ⟨by decide, rfl⟩

theorem test_hyp_ARunHasOneEnd : RunEnds xosState .normalHalt (pcAdvanced xosState) ∧
    EndsNormally xosState (pcAdvanced xosState) := ⟨.halts rfl, .halts rfl⟩

theorem test_hyp_RunEndsAreTheEndsOfCoreRuns :
    RunEnds xosState .normalHalt (pcAdvanced xosState) ∧
    Sys2Proof.core.run 1 xosState = .fault (.halt .normalHalt (pcAdvanced xosState)) :=
  ⟨.halts rfl, rfl⟩

theorem test_hyp_TextualRegisterPort :
    ['A', 'B', 'C', 'D'].length ≠ 6 ∧
    (∃ c ∈ ['0', '0', 'A', 'B', 'C', 'G'], hexDigitValue c = none) ∧
    ['0', '1'].length ≠ 24 ∧ (∃ c ∈ ['0', '2'], binDigitValue c = none) ∧
    (['0', '9', 'A', 'F', 'a', 'f'].length = 6 ∧
      (['0', '9', 'A', 'F', 'a', 'f'].map hexDigitValue) =
        [some 0, some 9, some 10, some 15, some 10, some 15]) :=
  ⟨by decide, ⟨'G', by simp, rfl⟩, by decide, ⟨'2', by simp, rfl⟩, by decide, rfl⟩

end Sys2Proof.Tests
end

section
/-! Proofs of the statements about the scope of the model (spec/00_scope.md): word accesses (O7), the
parameters (O48), and the signed reading with its encoding (O9). -/

namespace Sys2Proof.Proofs.Scope

open Sys2Proof Sys2Proof.Machine

/-! ## Word accesses -/

/-- The three bytes a word store leaves, most significant at the lowest address (R56). -/
theorem byteAt_storeAll_wordBytes (m : Memory) (a : Nat) (v : Word) :
    (m.storeAll a (wordBytes v)).byteAt a = v.extractLsb' 16 8 ∧
      (m.storeAll a (wordBytes v)).byteAt (a + 1) = v.extractLsb' 8 8 ∧
      (m.storeAll a (wordBytes v)).byteAt (a + 2) = v.extractLsb' 0 8 :=
  have inside (i : Nat) (h : i < (wordBytes v).length) :=
    byteAt_storeAll_inside (wordBytes v) m a i h
  ⟨inside 0 (by simp [wordBytes]), inside 1 (by simp [wordBytes]), inside 2 (by simp [wordBytes])⟩

/-- Settles O7: `readWord_ok` and `writeWord_ok` inside memory, their `_error` twins past its end. -/
theorem wordAccessesAreBigEndianAndAllOrNothing :
    Obligations.WordAccessesAreBigEndianAndAllOrNothing := by
  intro m a v
  constructor
  · intro ha
    have hfit : a + 3 ≤ memSize := by simp only [memSize]; omega
    obtain ⟨hhi, hmid, hlo⟩ := byteAt_storeAll_wordBytes m a v
    have hread : readWord (m.storeAll a (wordBytes v)) a = .ok v := by
      rw [readWord_ok _ hfit, wordAt_storeAll_wordBytes]
    exact ⟨readWord_ok m hfit, _, writeWord_ok m v hfit, hread, hhi, hmid, hlo,
      fun b hb => byteAt_storeAll_outside (wordBytes v) m hb⟩
  · intro ha
    have hover : memSize < a + 3 := by simp only [memSize]; omega
    exact ⟨readWord_error m hover, writeWord_error m v hover⟩

/-! ## The signed reading and its encoding -/

theorem toNat_enc24 (n : Int) : ((enc24 n).toNat : Int) = n % 16777216 := by
  have hpos : 0 ≤ n % 16777216 := Int.emod_nonneg n (by decide)
  simpa [enc24, BitVec.toNat_ofInt] using hpos

theorem sgn24_enc24 {n : Int} (hlo : -8388608 ≤ n) (hhi : n ≤ 8388607) : sgn24 (enc24 n) = n := by
  have henc := toNat_enc24 n
  unfold sgn24
  split <;> omega

theorem enc24_sgn24 (v : Word) : enc24 (sgn24 v) = v :=
  sgn24_injective (sgn24_enc24 (sgn24_bounds v).1 (sgn24_bounds v).2)

/-- Settles O9: the encoding undoes the reading since the reading is injective and undoes the encoding. -/
theorem signedReadingAndEncodingAreInverse : Obligations.SignedReadingAndEncodingAreInverse :=
  ⟨fun v => ⟨enc24_sgn24 v, sgn24_bounds v⟩,
    fun n hlo hhi => ⟨sgn24_enc24 hlo hhi, toNat_enc24 n⟩⟩

/-! ## What a halt leaves

A step writes its results only when it completes: what a halting step leaves is the state it started
from, with PC advanced or not (R130, R131). -/

/-- If this result is a halt, the state left is `s`, with PC advanced or not. -/
def HaltLeaves (s : State) (res : Result) : Prop :=
  ∀ r left, halt? res = some (r, left) → left = s ∨ left = advance s

theorem haltLeaves_next (s t : State) : HaltLeaves s (.next t) := by
  intro r left h
  cases h

theorem haltLeaves_refused (s : State) (q : Refusal) : HaltLeaves s (.refused q) := by
  intro r left h
  cases h

theorem haltLeaves_raise (s : State) (r : HaltReason) : HaltLeaves s (raise r s) := by
  intro r' left h
  cases h
  exact .inl rfl

theorem haltLeaves_raise_advance (s : State) (r : HaltReason) :
    HaltLeaves s (raise r (advance s)) := by
  intro r' left h
  cases h
  exact .inr rfl

theorem haltLeaves_attempt {α : Type} {s : State} (e : Except HaltReason α) {k : α → Result}
    (hk : ∀ v, HaltLeaves s (k v)) : HaltLeaves s (attempt e (advance s) k) := by
  cases e with
  | ok v => exact hk v
  | error r => exact haltLeaves_raise_advance s r

theorem haltLeaves_withOperand (o : Operand) {s : State} {k : Nat → State → Result}
    (hk : ∀ m, HaltLeaves s (k m (advance s))) : HaltLeaves s (withOperand o s k) := by
  rcases withOperand_cases o s k with ⟨-, h⟩ | ⟨-, h⟩ <;> rw [h]
  · exact haltLeaves_raise s _
  · exact hk _

theorem haltLeaves_withWord (o : Operand) {s : State} {k : Word → State → Result}
    (hk : ∀ w, HaltLeaves s (k w (advance s))) : HaltLeaves s (withWord o s k) :=
  haltLeaves_withOperand o fun _ => haltLeaves_attempt _ hk

theorem haltLeaves_loadWord (r : Reg) (o : Operand) (s : State) : HaltLeaves s (loadWord r o s) :=
  haltLeaves_withWord o fun _ => haltLeaves_next s _

theorem haltLeaves_storeWord (r : Reg) (o : Operand) (s : State) : HaltLeaves s (storeWord r o s) :=
  haltLeaves_withOperand o fun _ => haltLeaves_attempt _ fun _ => haltLeaves_next s _

theorem haltLeaves_commitA (mn : Mnemonic) (v : Int) (s : State) :
    HaltLeaves s (commitA mn v (advance s)) := by
  by_cases hv : inRange v
  · rw [commitA_inRange mn _ hv]
    exact haltLeaves_next s _
  · rw [commitA_outOfRange mn _ hv]
    exact haltLeaves_raise_advance s _

theorem haltLeaves_jumpIf (c : Condition) (o : Operand) (s : State) : HaltLeaves s (jumpIf c o s) :=
  haltLeaves_withOperand o fun _ => haltLeaves_next s _

theorem haltLeaves_withAbsentDevice (mn : Mnemonic) (o : Operand) (s : State) :
    HaltLeaves s (withAbsentDevice mn o s fun _ s1 => .next s1) := by
  refine haltLeaves_withOperand o fun m => ?_
  split
  · exact haltLeaves_next s _
  · exact haltLeaves_refused s _

theorem exec_ldch_eq (o : Operand) (s : State) : exec (.ldch o) s = withOperand o s fun m s1 =>
    attempt (readByte s1.mem m) s1 fun b =>
      .next (writeReg s1 .A (s1.a.extractLsb' 8 16 ++ b : BitVec 24)) := rfl

theorem exec_stch_eq (o : Operand) (s : State) : exec (.stch o) s = withOperand o s fun m s1 =>
    attempt (writeByte s1.mem m (s1.a.extractLsb' 0 8)) s1 fun mem => .next (setMem s1 mem) := rfl

theorem haltLeaves_exec (i : Instr) (s : State) : HaltLeaves s (exec i s) := by
  cases i with
  | lda o | ldx o | ldl o =>
    simp only [exec_lda, exec_ldx, exec_ldl]
    exact haltLeaves_loadWord _ o s
  | sta o | stx o | stl o | stsw o =>
    simp only [exec_sta, exec_stx, exec_stl, exec_stsw]
    exact haltLeaves_storeWord _ o s
  | ldch o | stch o =>
    simp only [exec_ldch_eq, exec_stch_eq]
    exact haltLeaves_withOperand o fun _ => haltLeaves_attempt _ fun _ => haltLeaves_next s _
  | add o | sub o | mul o =>
    simp only [exec_add, exec_sub, exec_mul]
    exact haltLeaves_withWord o fun _ => haltLeaves_commitA _ _ s
  | div o =>
    rw [exec_div]
    refine haltLeaves_withWord o fun w => ?_
    split
    · exact haltLeaves_raise_advance s _
    · exact haltLeaves_commitA _ _ s
  | and o | or o | comp o | tix o =>
    simp only [exec_and, exec_or, exec_comp, exec_tix]
    exact haltLeaves_withWord o fun _ => haltLeaves_next s _
  | jeq o | jgt o | jlt o =>
    simp only [exec_jeq, exec_jgt, exec_jlt]
    exact haltLeaves_jumpIf _ o s
  | j o | jsub o | rsub o =>
    simp only [exec_j, exec_jsub, exec_rsub]
    exact haltLeaves_withOperand o fun _ => haltLeaves_next s _
  | rd o | wd o | td o =>
    simp only [exec_rd, exec_wd, exec_td]
    exact haltLeaves_withAbsentDevice _ o s
  | xos o =>
    rw [exec_xos]
    exact haltLeaves_withOperand o fun _ => haltLeaves_raise_advance s _

/-! ## The state after a step -/

theorem stateAfter?_cases {res : Result} {t : State} (h : stateAfter? res = some t) :
    res = .next t ∨ ∃ r, halt? res = some (r, t) := by
  cases res with
  | next t' => cases h; exact .inl rfl
  | fault f =>
    obtain ⟨r, left⟩ := f
    cases h
    exact .inr ⟨r, rfl⟩
  | refused q => cases h

/-- Everything a step can leave: the state it started from, that state with PC advanced, or what the
fetched instruction completes with. -/
theorem step_stateAfter?_cases {s t : State} (h : stateAfter? (step s) = some t) :
    t = s ∨ t = advance s ∨ ∃ i, fetch s = .ok i ∧ exec i s = .next t := by
  cases hf : fetch s with
  | error r =>
    rw [step_of_fetch_error hf] at h
    cases h
    exact .inl rfl
  | ok i =>
    rw [step_of_fetch hf] at h
    rcases stateAfter?_cases h with hn | ⟨r, hr⟩
    · exact .inr (.inr ⟨i, rfl, hn⟩)
    · rcases haltLeaves_exec i s r t hr with hs | ha
      · exact .inl hs
      · exact .inr (.inl ha)

/-! ## The parameters -/

/-- No instruction that completes writes the parameters: it writes registers or memory. -/
theorem nextShape_cfg {i : Instr} {s t : State} (h : NextShape i s t) : t.cfg = s.cfg := by
  cases i with
  | lda _ | ldx _ | ldl _ | ldch _ | stch _ | j _ | jsub _ | rsub _ | rd _ | wd _ | td _ =>
    cases h
    rfl
  | add _ | sub _ | mul _ | div _ | and _ | or _ | comp _ =>
    obtain ⟨_, rfl⟩ := h
    rfl
  | tix _ =>
    obtain ⟨_, _, rfl⟩ := h
    rfl
  | sta _ | stx _ | stl _ | stsw _ =>
    obtain ⟨-, rfl⟩ := h
    rfl
  | jeq _ | jgt _ | jlt _ =>
    rw [show t = ite _ _ _ from h]
    split <;> rfl
  | xos _ => exact h.elim

/-- Settles O48, by the three things a step can leave. -/
theorem parametersNeverChange : Obligations.ParametersNeverChange := by
  intro s t h
  rcases step_stateAfter?_cases h with rfl | rfl | ⟨i, -, hexec⟩
  · rfl
  · exact advance_cfg s
  · exact nextShape_cfg (exec_next hexec).2

end Sys2Proof.Proofs.Scope
end

section
/-! Proofs of the statements about the state (spec/10_state.md): construction and the loader (O1, O2), the
canonical form of memory (O8), the frames of the registers and of memory (O45, O47), the invariant
(O50 to O52), PC (O24), the conditional jumps (O38, O39) and the textual register port (O56). -/

namespace Sys2Proof.Proofs.MachineState

open Sys2Proof Sys2Proof.Machine Sys2Proof.Claims Sys2Proof.Proofs.Scope

/-! ## Construction and the loader -/

/-- A context comes only from records that fit: it is the fresh one with their bytes in memory. -/
theorem load_ok {cfg : Config} {records : List TextRecord} {s : State}
    (h : load cfg records = .ok s) :
    ∃ m, loadRecords [] records = .ok m ∧ s = setMem (State.fresh cfg) m := by
  unfold load at h
  cases hm : loadRecords [] records with
  | error r => rw [hm] at h; cases h
  | ok m => rw [hm] at h; cases h; exact ⟨m, rfl, rfl⟩

/-- Settles O1: both contexts are fresh ones, with other memory at most. -/
theorem constructionSetsEveryRegisterToAllOnes :
    Obligations.ConstructionSetsEveryRegisterToAllOnes := by
  refine ⟨fun r => readReg_fresh defaultConfig r, fun cfg records s h r => ?_⟩
  obtain ⟨m, -, rfl⟩ := load_ok h
  rw [readReg_setMem]
  exact readReg_fresh cfg r

/-- Loading the bytes of a record that fits stores them all. -/
theorem loadBytes_ok {m m' : Memory} {a : Nat} {bs : List Byte} (h : loadBytes m a bs = .ok m') :
    m' = m.storeAll a bs := by
  induction bs generalizing m a with
  | nil => cases h; rfl
  | cons b rest ih =>
    by_cases ha : a ≤ maxAddr
    · rw [loadBytes, writeByte_ok m b ha] at h
      exact ih h
    · rw [loadBytes, writeByte, if_neg ha] at h
      cases h

/-- A byte that no record covers reads as it did before the records were loaded. -/
theorem byteAt_loadRecords_uncovered {m m' : Memory} {records : List TextRecord} {a : Nat}
    (h : loadRecords m records = .ok m') (ha : ∀ r ∈ records, ¬ covers r a) :
    m'.byteAt a = m.byteAt a := by
  induction records generalizing m with
  | nil => cases h; rfl
  | cons r rest ih =>
    have hr : a < r.startAddress ∨ r.startAddress + r.bytes.length ≤ a := by
      have hnot := ha r List.mem_cons_self
      unfold covers at hnot
      omega
    unfold loadRecords at h
    split at h
    next m1 h1 =>
      rw [ih h fun q hq => ha q (List.mem_cons_of_mem r hq), loadBytes_ok h1,
        byteAt_storeAll_outside r.bytes m hr]
    · cases h

/-- Settles O2: the loader starts from the memory with no cell listed. -/
theorem uncoveredCellsReadAllOnes : Obligations.UncoveredCellsReadAllOnes := by
  intro cfg records s a h ha hcov
  obtain ⟨m, hm, rfl⟩ := load_ok h
  rw [setMem_mem, readByte_ok m ha, byteAt_loadRecords_uncovered hm hcov]
  rfl

/-! ## The canonical form of memory -/

/-- A byte that does not read as an unlisted one is listed. -/
theorem mem_of_byteAt_ne_fill {m : Memory} {a : Nat} (h : m.byteAt a ≠ fill) :
    (a, m.byteAt a) ∈ m := by
  induction m with
  | nil => exact absurd rfl h
  | cons c rest ih =>
    obtain ⟨k, b⟩ := c
    by_cases hk : k = a
    · simp [hk]
    · rw [byteAt_cons, if_neg hk] at h ⊢
      exact List.mem_cons_of_mem _ (ih h)

/-- In a canonical memory a listed cell is what its address reads as. -/
theorem byteAt_of_mem {m : Memory} {c : Host.Cell} (h : m.wf) (hc : c ∈ m) :
    m.byteAt c.1 = c.2 := by
  obtain ⟨hrise, -⟩ := h
  induction m with
  | nil => cases hc
  | cons d rest ih =>
    obtain ⟨hhead, htail⟩ := List.pairwise_cons.1 hrise
    rcases List.mem_cons.1 hc with rfl | hc
    · exact if_pos rfl
    · exact (if_neg (Nat.ne_of_lt (hhead c hc))).trans (ih hc htail)

theorem subset_of_reads_alike {m m' : Memory} (h : m.wf)
    (hread : ∀ a, a ≤ 32767 → readByte m a = readByte m' a) : m ⊆ m' := by
  intro c hc
  obtain ⟨hle, hfill⟩ := h.2 c hc
  have hbyte : m'.byteAt c.1 = c.2 := by
    have heq := hread c.1 hle
    rw [readByte_ok m hle, readByte_ok m' hle, byteAt_of_mem h hc] at heq
    exact (Except.ok.inj heq).symm
  have hmem := mem_of_byteAt_ne_fill (m := m') (a := c.1) (hbyte ▸ hfill)
  rwa [hbyte] at hmem

theorem nodup_of_wf {m : Memory} (h : m.wf) : m.Nodup :=
  h.1.imp fun hlt heq => Nat.ne_of_lt hlt (congrArg Prod.fst heq)

/-- Settles O8: memories that read alike list the same cells, and rising addresses fix the order. -/
theorem memoriesThatReadAlikeAreEqual : Obligations.MemoriesThatReadAlikeAreEqual := by
  intro m m' h h' hread
  have hsub := subset_of_reads_alike h hread
  have hsub' := subset_of_reads_alike h' fun a ha => (hread a ha).symm
  have hperm : m.Perm m' := (List.perm_ext_iff_of_nodup (nodup_of_wf h) (nodup_of_wf h')).2
    fun c => ⟨fun hc => hsub hc, fun hc => hsub' hc⟩
  exact hperm.eq_of_pairwise (fun _ _ _ _ hlt hgt => absurd hlt (Nat.lt_asymm hgt)) h.1 h'.1

/-! ## Which registers an instruction writes -/

/-- The instructions whose step 4 or 5 may write the register (R26, R32); every one advances PC. -/
def registerWriters : Reg → List Mnemonic
  | .A => [.add, .sub, .mul, .div, .and, .or, .lda, .ldch]
  | .X => [.ldx, .tix]
  | .L => [.ldl, .jsub]
  | .SW => [.comp, .tix]
  | .PC => Mnemonic.all

theorem mnemonic_mem_all (mn : Mnemonic) : mn ∈ Mnemonic.all := by cases mn <;> decide

theorem readReg_advance {r : Reg} (s : State) (h : r ≠ .PC) :
    readReg (advance s) r = readReg s r := readReg_writeReg_ne s _ h

/-- An instruction that completes leaves the registers it is no writer of as they were. -/
theorem nextShape_readReg {i : Instr} {s t : State} {r : Reg} (h : NextShape i s t)
    (hr : i.mnemonic ∉ registerWriters r) : readReg t r = readReg s r := by
  have hpc : r ≠ .PC := fun heq => hr (heq ▸ mnemonic_mem_all i.mnemonic)
  have untouched {u : State} {r' : Reg} {v : Word} (hw : i.mnemonic ∈ registerWriters r') :
      readReg (writeReg u r' v) r = readReg u r :=
    readReg_writeReg_ne u v fun heq => hr (heq ▸ hw)
  rw [← readReg_advance s hpc]
  cases i with
  | lda _ | ldx _ | ldl _ | ldch _ =>
    cases h
    exact untouched (by simp [registerWriters])
  | add _ | sub _ | mul _ | div _ | and _ | or _ | comp _ =>
    obtain ⟨_, rfl⟩ := h
    exact untouched (by simp [registerWriters])
  | tix _ =>
    obtain ⟨_, _, rfl⟩ := h
    exact (untouched (by simp [registerWriters])).trans (untouched (by simp [registerWriters]))
  | sta _ | stx _ | stl _ | stsw _ =>
    obtain ⟨-, rfl⟩ := h
    exact readReg_setMem _ _ r
  | stch _ =>
    cases h
    exact readReg_setMem _ _ r
  | j _ | rsub _ =>
    cases h
    exact readReg_writeReg_ne _ _ hpc
  | jsub _ =>
    cases h
    exact (readReg_writeReg_ne _ _ hpc).trans <| untouched (by simp [registerWriters])
  | jeq _ | jgt _ | jlt _ =>
    rw [show t = ite _ _ _ from h]
    split
    · exact readReg_writeReg_ne _ _ hpc
    · rfl
  | rd _ | wd _ | td _ =>
    cases h
    rfl
  | xos _ => exact h.elim

/-- Settles O45: one register of `nextShape_readReg` after the other. -/
theorem registersChangeOnlyByTheirWriters : Obligations.RegistersChangeOnlyByTheirWriters := by
  intro i s t h
  obtain ⟨-, hshape⟩ := exec_next h
  exact ⟨nextShape_readReg (r := .A) hshape, nextShape_readReg (r := .X) hshape,
    nextShape_readReg (r := .L) hshape, nextShape_readReg (r := .SW) hshape⟩

/-! ## What an instruction stores -/

/-- Everything an instruction that completes can do to memory: nothing, store a whole word inside memory,
or store a byte. -/
theorem nextShape_mem_cases {i : Instr} {s t : State} (h : NextShape i s t) :
    t.mem = s.mem ∨
    (i.mnemonic ∈ wordWriters ∧ effectiveAddress i.operand s + 3 ≤ memSize ∧
      ∃ v, t.mem = s.mem.storeAll (effectiveAddress i.operand s) (wordBytes v)) ∨
    (i.mnemonic = .stch ∧ ∃ v, t.mem = s.mem.store (effectiveAddress i.operand s) v) := by
  cases i with
  | sta _ | stx _ | stl _ | stsw _ =>
    obtain ⟨hfit, rfl⟩ := h
    exact .inr (.inl ⟨by simp [wordWriters], hfit, _, rfl⟩)
  | stch _ =>
    cases h
    exact .inr (.inr ⟨rfl, _, rfl⟩)
  | lda _ | ldx _ | ldl _ | ldch _ | j _ | jsub _ | rsub _ | rd _ | wd _ | td _ =>
    cases h
    exact .inl rfl
  | add _ | sub _ | mul _ | div _ | and _ | or _ | comp _ =>
    obtain ⟨_, rfl⟩ := h
    exact .inl rfl
  | tix _ =>
    obtain ⟨_, _, rfl⟩ := h
    exact .inl rfl
  | jeq _ | jgt _ | jlt _ =>
    rw [show t = ite _ _ _ from h]
    left
    split <;> rfl
  | xos _ => exact h.elim

/-- Settles O47, by the three things an instruction can do to memory. -/
theorem memoryChangesOnlyWhereStored : Obligations.MemoryChangesOnlyWhereStored := by
  intro i s t h b
  obtain ⟨-, hshape⟩ := exec_next h
  rcases nextShape_mem_cases hshape with hmem | ⟨hword, -, v, hmem⟩ | ⟨hstch, v, hmem⟩ <;> rw [hmem]
  · exact ⟨fun _ _ => rfl, fun _ _ => rfl, fun _ _ => rfl⟩
  · refine ⟨fun _ hb => byteAt_storeAll_outside (wordBytes v) s.mem hb, fun hstch => ?_,
      fun hnot => absurd hword hnot⟩
    exact absurd (hstch ▸ hword) (by decide)
  · refine ⟨fun hword => ?_, fun _ hb => byteAt_store_ne s.mem v hb,
      fun _ hnot => absurd hstch hnot⟩
    exact absurd (hstch ▸ hword) (by decide)

/-- An instruction that completes keeps memory in canonical form. -/
theorem exec_next_mem_wf {i : Instr} {s t : State} (h : exec i s = .next t) (hwf : s.mem.wf) :
    t.mem.wf := by
  obtain ⟨hle, hshape⟩ := exec_next h
  rcases nextShape_mem_cases hshape with hmem | ⟨-, hfit, v, hmem⟩ | ⟨-, v, hmem⟩ <;> rw [hmem]
  · exact hwf
  · exact wf_storeAll (wordBytes v) hwf hfit
  · exact wf_store v hwf hle

/-! ## The invariant -/

theorem swIsCode_iff (s : State) : swIsCode s ↔ ∃ c, s.sw = conditionCode s.cfg c := by
  constructor
  · rintro (h | h | h)
    · exact ⟨.lessThan, h⟩
    · exact ⟨.equal, h⟩
    · exact ⟨.greaterThan, h⟩
  · rintro ⟨_ | _ | _, h⟩
    · exact .inl h
    · exact .inr (.inl h)
    · exact .inr (.inr h)

/-- SW after an instruction that completes: as before, or a condition code. -/
theorem nextShape_sw_cases {i : Instr} {s t : State} (h : NextShape i s t) :
    t.sw = s.sw ∨ swIsCode t := by
  by_cases hw : i.mnemonic ∈ registerWriters .SW
  · right
    rw [swIsCode_iff]
    cases i with
    | comp _ =>
      obtain ⟨c, rfl⟩ := h
      exact ⟨c, rfl⟩
    | tix _ =>
      obtain ⟨c, _, rfl⟩ := h
      exact ⟨c, rfl⟩
    | _ => simp [registerWriters] at hw
  · exact .inl (nextShape_readReg (r := .SW) h hw)

/-- SW after a step, halting or not: as before, or a condition code. -/
theorem step_sw_cases {s t : State} (h : stateAfter? (step s) = some t) :
    t.sw = s.sw ∨ swIsCode t := by
  rcases step_stateAfter?_cases h with rfl | rfl | ⟨i, -, hexec⟩
  · exact .inl rfl
  · exact .inl (advance_sw s)
  · exact nextShape_sw_cases (exec_next hexec).2

/-- A step, halting or not, keeps memory in canonical form. -/
theorem step_mem_wf {s t : State} (hwf : s.mem.wf) (h : stateAfter? (step s) = some t) :
    t.mem.wf := by
  rcases step_stateAfter?_cases h with rfl | rfl | ⟨i, -, hexec⟩
  · exact hwf
  · exact hwf
  · exact exec_next_mem_wf hexec hwf

/-- Settles O51: the codes are parameters, and SW is left alone or set to one of them. -/
theorem conditionCodeStaysACode : Obligations.ConditionCodeStaysACode := by
  intro s t hs h
  rcases step_sw_cases h with hsw | hcode
  · rwa [swIsCode, hsw, parametersNeverChange s t h]
  · exact hcode

/-- Settles O50, each part of the invariant by what a step does to memory, to the parameters and to SW. -/
theorem stepKeepsTheInvariant : Obligations.StepKeepsTheInvariant := by
  intro s t hs h
  have hsw : t.sw = regReset ∨ swIsCode t := by
    rcases hs.sw with hreset | hcode
    · exact (step_sw_cases h).imp_left fun heq => heq.trans hreset
    · exact .inr (conditionCodeStaysACode s t hcode h)
  exact ⟨step_mem_wf hs.mem h, parametersNeverChange s t h ▸ hs.cfg, hsw⟩

theorem defaultConfig_wf : defaultConfig.wf := by decide

/-- Settles O52: nothing is loaded, and SW is as it was built. -/
theorem resetMeetsTheInvariant : Obligations.ResetMeetsTheInvariant :=
  ⟨reset_mem_wf, defaultConfig_wf, .inl (fresh_sw defaultConfig)⟩

/-! ## The program counter -/

/-- Settles O24: `fetch_cases` leaves room for three bytes wherever an instruction is fetched. -/
theorem pcAdvanceNeverWraps : Obligations.PcAdvanceNeverWraps := by
  intro s i h
  have hroom : s.pc.toNat + 3 ≤ memSize := by
    rcases fetch_cases s with ⟨-, he⟩ | ⟨-, -, he⟩ | ⟨-, -, -, he⟩ | ⟨hroom, -⟩
    · rw [he] at h; cases h
    · rw [he] at h; cases h
    · rw [he] at h; cases h
    · exact hroom
  simp only [memSize] at hroom
  refine ⟨by omega, ?_⟩
  rw [BitVec.toNat_add, BitVec.toNat_ofNat]
  omega

/-! ## The conditional jumps -/

/-- A conditional jump inside memory, taken or not. -/
theorem jumpIf_result (c : Condition) {o : Operand} {s : State}
    (h : effectiveAddress o s ≤ maxAddr) :
    jumpIf c o s = .next { s with
      pc := if s.sw = conditionCode s.cfg c then BitVec.ofNat 24 (effectiveAddress o s)
        else s.pc + 3#24 } := by
  by_cases hc : s.sw = conditionCode s.cfg c
  · rw [jumpIf_taken h hc, if_pos hc]
    rfl
  · rw [jumpIf_not_taken h hc, if_neg hc]
    rfl

/-- Settles O38: the three jumps are `jumpIf` of the three conditions. -/
theorem conditionalJumpResult : Obligations.ConditionalJumpResult := fun _ _ h =>
  ⟨jumpIf_result .equal h, jumpIf_result .greaterThan h, jumpIf_result .lessThan h⟩

/-- The conditional jump on a condition (R211 to R213). -/
def condJump (o : Operand) : Condition → Instr
  | .equal => .jeq o
  | .greaterThan => .jgt o
  | .lessThan => .jlt o

theorem exec_condJump (c : Condition) (o : Operand) (s : State) :
    exec (condJump o c) s = jumpIf c o s := by cases c <;> rfl

theorem exists_condJump {i : Instr} {o : Operand} (h : i ∈ [Instr.jeq o, .jgt o, .jlt o]) :
    ∃ c, i = condJump o c := by
  simp only [List.mem_cons, List.not_mem_nil, or_false] at h
  rcases h with rfl | rfl | rfl
  · exact ⟨.equal, rfl⟩
  · exact ⟨.greaterThan, rfl⟩
  · exact ⟨.lessThan, rfl⟩

/-- The codes of different conditions differ (R31). -/
theorem conditionCode_injective {cfg : Config} (h : cfg.codesDistinct) :
    ∀ {c d : Condition}, conditionCode cfg c = conditionCode cfg d → c = d := by
  obtain ⟨hle, hlg, heg⟩ := h
  intro c d heq
  match c, d, heq with
  | .lessThan, .lessThan, _ | .equal, .equal, _ | .greaterThan, .greaterThan, _ => rfl
  | .lessThan, .equal, heq => exact absurd heq hle
  | .equal, .lessThan, heq => exact absurd heq.symm hle
  | .lessThan, .greaterThan, heq => exact absurd heq hlg
  | .greaterThan, .lessThan, heq => exact absurd heq.symm hlg
  | .equal, .greaterThan, heq => exact absurd heq heg
  | .greaterThan, .equal, heq => exact absurd heq.symm heg

/-- No condition's code is the reset value of SW (R31). -/
theorem conditionCode_ne_reset {cfg : Config} (h : cfg.codesNotReset) (c : Condition) :
    conditionCode cfg c ≠ regReset := by
  obtain ⟨hlt, heq, hgt⟩ := h
  cases c with
  | lessThan => exact hlt
  | equal => exact heq
  | greaterThan => exact hgt

/-- A conditional jump whose condition does not hold only advances PC. -/
theorem jumpIf_next_of_ne {c : Condition} {o : Operand} {s t : State}
    (hc : s.sw ≠ conditionCode s.cfg c) (h : jumpIf c o s = .next t) : t = pcAdvanced s := by
  obtain ⟨-, ht⟩ := jumpIf_next h
  rw [if_neg hc] at ht
  exact ht

/-- Settles O39: a jump that does more than advance PC found its own code in SW, and the codes differ
from the reset value and from each other. -/
theorem atMostOneConditionalJumpIsTaken : Obligations.AtMostOneConditionalJumpIsTaken := by
  intro o s t hwf
  obtain ⟨-, -, -, hdistinct, hnotReset⟩ := hwf
  constructor
  · intro hsw hjump
    have only_advances (c : Condition) : jumpIf c o s = .next t → t = pcAdvanced s :=
      jumpIf_next_of_ne fun heq => conditionCode_ne_reset hnotReset c (heq.symm.trans hsw)
    rcases hjump with h | h | h
    · exact only_advances .equal h
    · exact only_advances .greaterThan h
    · exact only_advances .lessThan h
  · intro i j hi hj hne hexec htaken hle
    obtain ⟨c, rfl⟩ := exists_condJump hi
    obtain ⟨d, rfl⟩ := exists_condJump hj
    rw [exec_condJump] at hexec ⊢
    have hc : s.sw = conditionCode s.cfg c := by
      by_contra hc
      exact htaken (jumpIf_next_of_ne hc hexec)
    refine jumpIf_not_taken hle fun hd => hne ?_
    rw [conditionCode_injective hdistinct (hc.symm.trans hd)]

/-! ## Strings of digits -/

theorem digitsValue_concat (base : Nat) (digit : Char → Option Nat) (cs : List Char) (c : Char) :
    digitsValue base digit (cs ++ [c]) =
      (digitsValue base digit cs).bind fun n => (digit c).map fun d => n * base + d :=
  List.foldl_concat _ _ _ _

/-- A string stands for no number iff one of its characters is no digit. -/
theorem digitsValue_eq_none {base : Nat} {digit : Char → Option Nat} {cs : List Char} :
    digitsValue base digit cs = none ↔ ∃ c ∈ cs, digit c = none := by
  induction cs using List.reverseRecOn with
  | nil => simp [digitsValue]
  | append_singleton cs c ih =>
    rw [digitsValue_concat]
    cases hcs : digitsValue base digit cs with
    | none =>
      obtain ⟨c', hc', hd⟩ := ih.1 hcs
      exact ⟨fun _ => ⟨c', List.mem_append_left _ hc', hd⟩, fun _ => rfl⟩
    | some n =>
      have hall : ∀ c' ∈ cs, digit c' ≠ none := fun c' hc' hd => by
        rw [ih.2 ⟨c', hc', hd⟩] at hcs
        cases hcs
      constructor
      · intro h
        exact ⟨c, by simp, by simpa using h⟩
      · rintro ⟨c', hc', hd⟩
        rcases List.mem_append.1 hc' with hc' | hc'
        · exact absurd hd (hall c' hc')
        · rw [List.mem_singleton.1 hc'] at hd
          simp [hd]

/-- The last digit of a number is its remainder, the digits before it are those of its quotient. -/
theorem toDigits_succ (base len n : Nat) :
    toDigits base (len + 1) n = toDigits base len (n / base) ++ [hexDigit (n % base)] := by
  have hpow (i : Nat) (h : i < len) :
      n / base ^ (len + 1 - 1 - i) = n / base / base ^ (len - 1 - i) := by
    rw [Nat.div_div_eq_div_mul, ← Nat.pow_succ']
    congr 2
    omega
  simp only [toDigits, List.range_succ, List.map_append, List.map_cons, List.map_nil]
  congr 1
  · exact List.map_congr_left fun i hi => by rw [hpow i (List.mem_range.1 hi)]
  · simp

/-- The digits of a number read back, modulo what their count can hold. -/
theorem digitsValue_toDigits {base : Nat} {digit : Char → Option Nat} (hbase : 0 < base)
    (hdigit : ∀ d, d < base → digit (hexDigit d) = some d) (len n : Nat) :
    digitsValue base digit (toDigits base len n) = some (n % base ^ len) := by
  induction len generalizing n with
  | zero => simp [toDigits, digitsValue, Nat.mod_one]
  | succ len ih =>
    rw [toDigits_succ, digitsValue_concat, ih, hdigit _ (Nat.mod_lt n hbase), Nat.pow_succ',
      Nat.mod_mul]
    simp [Nat.mul_comm, Nat.add_comm]

/-- The digits of the number a string stands for are the string, each character in the form that
`hexDigit` writes. -/
theorem toDigits_of_digitsValue {base : Nat} {digit : Char → Option Nat} {form : Char → Char}
    (hdigit : ∀ c d, digit c = some d → d < base ∧ hexDigit d = form c) {cs : List Char} {n : Nat}
    (h : digitsValue base digit cs = some n) :
    n < base ^ cs.length ∧ toDigits base cs.length n = cs.map form := by
  induction cs using List.reverseRecOn generalizing n with
  | nil =>
    cases h
    exact ⟨by simp, rfl⟩
  | append_singleton cs c ih =>
    rw [digitsValue_concat] at h
    obtain ⟨q, hq, h⟩ := Option.bind_eq_some_iff.1 h
    obtain ⟨d, hd, rfl⟩ := Option.map_eq_some_iff.1 h
    obtain ⟨hlt, hdigits⟩ := ih hq
    obtain ⟨hdlt, hform⟩ := hdigit c d hd
    have hdiv : (q * base + d) / base = q := by
      rw [Nat.mul_comm, Nat.mul_add_div (by omega), Nat.div_eq_of_lt hdlt, Nat.add_zero]
    have hmod : (q * base + d) % base = d := by
      rw [Nat.mul_comm, Nat.mul_add_mod, Nat.mod_eq_of_lt hdlt]
    rw [List.length_append, List.length_singleton, toDigits_succ, hdiv, hmod, hdigits, hform,
      List.map_append, List.map_singleton]
    refine ⟨?_, rfl⟩
    calc q * base + d < (q + 1) * base := by rw [Nat.add_mul]; omega
      _ ≤ base ^ (cs.length + 1) := Nat.mul_le_mul_right base hlt

/-! ## The textual register port -/

theorem hexDigitValue_hexDigit : ∀ d, d < 16 → hexDigitValue (hexDigit d) = some d := by decide

theorem binDigitValue_hexDigit : ∀ d, d < 2 → binDigitValue (hexDigit d) = some d := by decide

/-- Every hexadecimal digit is an ASCII character, so this finite table is all of them. -/
theorem hexDigit_of_hexDigitValue_ascii : ∀ n, n ≤ 'f'.toNat →
    ∀ d ∈ hexDigitValue (Char.ofNat n), d < 16 ∧ hexDigit d = (Char.ofNat n).toUpper := by decide

/-- The digit of the value of a hexadecimal digit is that digit in upper case. -/
theorem hexDigit_of_hexDigitValue (c : Char) (d : Nat) (h : hexDigitValue c = some d) :
    d < 16 ∧ hexDigit d = c.toUpper := by
  have hascii : c.toNat ≤ 'f'.toNat := by
    unfold hexDigitValue at h
    split at h
    next hdecimal => exact hdecimal.2.trans (by decide)
    split at h
    next hupper => exact hupper.2.trans (by decide)
    split at h
    next hlower => exact hlower.2
    cases h
  have htable := hexDigit_of_hexDigitValue_ascii c.toNat hascii d
  rw [Char.ofNat_toNat] at htable
  exact htable h

section
variable (base len : Nat) (digit : Char → Option Nat) (s : State) (r : Reg) (cs : List Char)

theorem setFromDigits_some {n : Nat} (hlen : cs.length = len)
    (h : digitsValue base digit cs = some n) :
    setFromDigits base len digit s r cs = .ok (writeReg s r (BitVec.ofNat 24 n)) := by
  rw [setFromDigits, if_pos hlen, h]

theorem setFromDigits_malformed (h : cs.length ≠ len ∨ ∃ c ∈ cs, digit c = none) :
    setFromDigits base len digit s r cs = .error .registerFormatFault := by
  unfold setFromDigits
  split
  next hlen =>
    rw [digitsValue_eq_none.2 (h.resolve_left (not_not_intro hlen))]
  · rfl

/-- A view of a register's value sets the register back to it, if it has room for 24 bits. -/
theorem setFromDigits_toDigits (hbase : 0 < base)
    (hdigit : ∀ d, d < base → digit (hexDigit d) = some d) (hroom : base ^ len = 2 ^ 24) (v : Word) :
    setFromDigits base len digit s r (toDigits base len v.toNat) = .ok (writeReg s r v) := by
  have hvalue := digitsValue_toDigits hbase hdigit len v.toNat
  rw [hroom, Nat.mod_eq_of_lt v.isLt] at hvalue
  rw [setFromDigits_some base len digit s r _ (by simp [toDigits]) hvalue, BitVec.ofNat_toNat,
    BitVec.setWidth_eq]

end

/-- Settles O56: both views are `toDigits`, both ports `setFromDigits`, and reading digits and writing
them undo each other up to the case of letters. -/
theorem textualRegisterPort : Obligations.TextualRegisterPort := by
  refine ⟨fun s r v => ⟨?_, ?_⟩, fun s r cs => ⟨?_, ?_⟩, fun s r cs hlen hhex => ?_⟩
  · exact setFromDigits_toDigits 16 6 _ s r (by decide) hexDigitValue_hexDigit (by decide) v
  · exact setFromDigits_toDigits 2 24 _ s r (by decide) binDigitValue_hexDigit rfl v
  · exact setFromDigits_malformed 16 6 hexDigitValue s r cs
  · exact setFromDigits_malformed 2 24 binDigitValue s r cs
  · have hsome : digitsValue 16 hexDigitValue cs ≠ none := fun hnone => by
      obtain ⟨c, hc, hbad⟩ := digitsValue_eq_none.1 hnone
      obtain ⟨d, hd⟩ := hhex c hc
      rw [hbad] at hd
      cases hd
    obtain ⟨n, hn⟩ := Option.ne_none_iff_exists'.1 hsome
    obtain ⟨hlt, hdigits⟩ := toDigits_of_digitsValue hexDigit_of_hexDigitValue hn
    rw [hlen] at hlt hdigits
    refine ⟨BitVec.ofNat 24 n, setFromDigits_some 16 6 hexDigitValue s r cs hlen hn, ?_⟩
    rw [asHex, BitVec.toNat_ofNat, Nat.mod_eq_of_lt (show n < 2 ^ 24 from hlt), hdigits]

end Sys2Proof.Proofs.MachineState
end

section
/-! Proofs of the statements about memory and what stands in it (spec/20_memory.md): bytes (O5, O6), the
loader (O3, O4, O53), the encoding of instructions (O10, O11), what the next fetch finds (O15, O18, O49),
and the word loads and stores (O32, O34). -/

namespace Sys2Proof.Proofs.MainMemory

open Sys2Proof Sys2Proof.Machine Sys2Proof.Claims Sys2Proof.Laws Sys2Proof.Proofs.Scope
  Sys2Proof.Proofs.MachineState

/-! ## The opcode table as a map and its inverse -/

theorem lookupOpcode_eq_some_iff {c : Config} {op : Byte} {mn : Mnemonic} (h : c.keysDistinct) :
    lookupOpcode c op = some mn ↔ (op, mn) ∈ c.optab := by
  constructor
  · intro hl
    obtain ⟨pre, post, heq, -⟩ := List.lookup_eq_some_iff.1 hl
    simp [heq]
  · intro hmem
    cases hl : lookupOpcode c op with
    | none => simpa using List.lookup_eq_none_iff.1 hl _ hmem
    | some mn' =>
      obtain ⟨pre, post, heq, -⟩ := List.lookup_eq_some_iff.1 hl
      have hmem' : (op, mn') ∈ c.optab := by simp [heq]
      have hsame := List.inj_on_of_nodup_map h hmem' hmem rfl
      cases hsame
      rfl

theorem opcodeByte_eq_some_iff {c : Config} {op : Byte} {mn : Mnemonic}
    (h : c.mnemonicsDistinct) : opcodeByte c mn = some op ↔ (op, mn) ∈ c.optab := by
  constructor
  · intro hf
    obtain ⟨⟨op', mn'⟩, he, rfl⟩ := Option.map_eq_some_iff.1 hf
    have hmn : mn' = mn := by simpa using List.find?_some he
    exact hmn ▸ List.mem_of_find?_eq_some he
  · intro hmem
    cases he : c.optab.find? fun e => e.2 == mn with
    | none => simpa using List.find?_eq_none.1 he _ hmem
    | some e =>
      have hmn : e.2 = mn := by simpa using List.find?_some he
      have hsame := List.inj_on_of_nodup_map h (List.mem_of_find?_eq_some he) hmem hmn
      simp [opcodeByte, he, hsame]

/-- In a table that meets R101 the encoder's choice of byte is the inverse of the decoder's lookup. -/
theorem lookupOpcode_iff_opcodeByte {c : Config} {op : Byte} {mn : Mnemonic}
    (hkeys : c.keysDistinct) (hmns : c.mnemonicsDistinct) :
    lookupOpcode c op = some mn ↔ opcodeByte c mn = some op :=
  (lookupOpcode_eq_some_iff hkeys).trans (opcodeByte_eq_some_iff hmns).symm

theorem exists_opcodeByte {c : Config} (hmns : c.mnemonicsDistinct) (hall : c.mnemonicsComplete)
    (mn : Mnemonic) : ∃ op, opcodeByte c mn = some op := by
  obtain ⟨⟨op, _⟩, hmem, rfl⟩ := List.mem_map.1 (hall mn (mnemonic_mem_all mn))
  exact ⟨op, (opcodeByte_eq_some_iff hmns).2 hmem⟩

/-! ## The operand field -/

theorem decodeField_wf (f : BitVec 16) : (decodeField f).wf :=
  Nat.le_of_lt_succ (f.extractLsb' 0 15).isLt

theorem decodeField_encodeField {o : Operand} (h : o.wf) : decodeField (encodeField o) = o := by
  obtain ⟨flag, mag⟩ := o
  have hmag : (BitVec.ofNat 15 mag).toNat = mag := Nat.mod_eq_of_lt (Nat.lt_succ_of_le h)
  rw [decodeField, encodeField, BitVec.extractLsb'_append_eq_right, hmag, BitVec.getLsbD_append]
  simp

theorem encodeField_decodeField (f : BitVec 16) : encodeField (decodeField f) = f := by
  have hflag : BitVec.ofBool (f.getLsbD 15) = f.extractLsb' 15 1 := by
    ext i hi
    simp [show i = 0 by omega]
  rw [encodeField, decodeField, BitVec.ofNat_toNat, BitVec.setWidth_eq, hflag]
  exact (BitVec.extractLsb'_append_extractLsb'_eq_extractLsb' rfl).trans BitVec.extractLsb'_eq_self

theorem fieldBytes_append (f : BitVec 16) :
    (f.extractLsb' 8 8 ++ f.extractLsb' 0 8 : BitVec 16) = f :=
  (BitVec.extractLsb'_append_extractLsb'_eq_extractLsb' rfl).trans BitVec.extractLsb'_eq_self

/-! ## Decoding three bytes -/

/-- Everything the decoder accepts when three bytes are there: the opcode is known, and the instruction
is its mnemonic's with the field the other two bytes make. -/
theorem decode_eq_ok_iff {c : Config} {op hi lo : Byte} {rest rest' : List Byte} {i : Instr} :
    decode c (op :: hi :: lo :: rest) = .ok (i, rest') ↔
      ∃ mn, lookupOpcode c op = some mn ∧
        i = Instr.ofMnemonic mn (decodeField (hi ++ lo : BitVec 16)) ∧ rest' = rest := by
  cases hl : lookupOpcode c op with
  | none => simp [decode, hl]
  | some mn => simp [decode, hl, ofNat_bytesToNat_two, eq_comm]

theorem rebuild : ∀ i : Instr, Rebuild.Statement i
  | .lda o => Rebuild.lda o | .ldx o => Rebuild.ldx o | .ldl o => Rebuild.ldl o
  | .sta o => Rebuild.sta o | .stx o => Rebuild.stx o | .stl o => Rebuild.stl o
  | .add o => Rebuild.add o | .sub o => Rebuild.sub o | .mul o => Rebuild.mul o
  | .div o => Rebuild.div o | .comp o => Rebuild.comp o | .tix o => Rebuild.tix o
  | .jeq o => Rebuild.jeq o | .jgt o => Rebuild.jgt o | .jlt o => Rebuild.jlt o
  | .j o => Rebuild.j o | .and o => Rebuild.and o | .or o => Rebuild.or o
  | .jsub o => Rebuild.jsub o | .rsub o => Rebuild.rsub o | .ldch o => Rebuild.ldch o
  | .stch o => Rebuild.stch o | .rd o => Rebuild.rd o | .wd o => Rebuild.wd o
  | .td o => Rebuild.td o | .stsw o => Rebuild.stsw o | .xos o => Rebuild.xos o

@[simp] theorem ofMnemonic_mnemonic (mn : Mnemonic) (o : Operand) :
    (Instr.ofMnemonic mn o).mnemonic = mn := by cases mn <;> rfl

@[simp] theorem ofMnemonic_operand (mn : Mnemonic) (o : Operand) :
    (Instr.ofMnemonic mn o).operand = o := by cases mn <;> rfl

theorem encode_eq {c : Config} {i : Instr} {op : Byte} (h : opcodeByte c i.mnemonic = some op) :
    encode c i = some [op, (encodeField i.operand).extractLsb' 8 8,
      (encodeField i.operand).extractLsb' 0 8] := by
  rw [encode, h, Option.map_some]

/-- Settles O10: the table's lookup undoes the encoder's choice of byte, and the field's reading undoes
its encoding. -/
theorem decodeOfEncodeIsTheInstruction : Obligations.DecodeOfEncodeIsTheInstruction := by
  rintro c i rest ⟨hkeys, hmns, hall, -⟩ hi
  obtain ⟨op, hop⟩ := exists_opcodeByte hmns hall i.mnemonic
  refine ⟨_, encode_eq hop, rfl, decode_eq_ok_iff.2 ⟨i.mnemonic, ?_, ?_, rfl⟩⟩
  · exact (lookupOpcode_iff_opcodeByte hkeys hmns).2 hop
  · rw [fieldBytes_append, decodeField_encodeField hi]
    exact (rebuild i).symm

/-- Settles O11: both round trips of the table and of the field, the other way around. -/
theorem encodeOfDecodeIsTheBytes : Obligations.EncodeOfDecodeIsTheBytes := by
  rintro c b0 b1 b2 rest rest' i ⟨hkeys, hmns, -⟩ hd
  obtain ⟨mn, hl, rfl, rfl⟩ := decode_eq_ok_iff.1 hd
  have hop : opcodeByte c mn = some b0 := (lookupOpcode_iff_opcodeByte hkeys hmns).1 hl
  refine ⟨?_, rfl, ?_⟩
  · rw [Instr.wf, ofMnemonic_operand]
    exact decodeField_wf _
  · rw [encode_eq (op := b0) (by rwa [ofMnemonic_mnemonic]), ofMnemonic_operand,
      encodeField_decodeField, BitVec.extractLsb'_append_eq_left,
      BitVec.extractLsb'_append_eq_right]

/-! ## Bytes of memory -/

theorem writeByte_error (m : Memory) {a : Nat} (v : Byte) (h : maxAddr < a) :
    writeByte m a v = .error (.addressRangeFault a) := if_neg (Nat.not_le.2 h)

theorem readByte_store_ne (m : Memory) (v : Byte) {a b : Nat} (h : b ≠ a) :
    readByte (m.store a v) b = readByte m b := by
  rw [readByte, readByte, byteAt_store_ne m v h]

/-- Settles O5, by what a store leaves at its own address and at another. -/
theorem writeByteThenReadByte : Obligations.WriteByteThenReadByte := by
  intro m a v
  refine ⟨fun h => ⟨a, writeByte_error m v h⟩, fun h => ⟨_, writeByte_ok m v h, ?_, ?_⟩⟩
  · rw [readByte_ok _ h, byteAt_store_same]
  · exact fun b hb => readByte_store_ne m v hb

theorem readBytes_ok (m : Memory) {a n : Nat} (h : a + n ≤ memSize) :
    readBytes m a n = .ok ((List.range n).map fun i => m.byteAt (a + i)) := if_pos h

theorem readBytes_error (m : Memory) {a n : Nat} (h : memSize < a + n) :
    readBytes m a n = .error (.addressRangeFault (lowestBad a)) := if_neg (Nat.not_le.2 h)

/-- Settles O6: inside memory every byte of the range is one `read_byte` answers. -/
theorem readBytesConcatenatesReadByte : Obligations.ReadBytesConcatenatesReadByte := by
  intro m a n _
  refine ⟨fun h => ⟨_, readBytes_ok m h, by simp, fun i hi => ⟨m.byteAt (a + i), ?_, ?_⟩⟩,
    fun h => ⟨_, readBytes_error m h⟩⟩
  · simp [hi]
  · exact readByte_ok m (by simp only [maxAddr]; omega)

/-! ## The loader -/

theorem loadBytes_of_fits (m : Memory) {a : Nat} {bs : List Byte} (h : a + bs.length ≤ memSize) :
    loadBytes m a bs = .ok (m.storeAll a bs) := by
  induction bs generalizing m a with
  | nil => rfl
  | cons b rest ih =>
    simp only [List.length_cons, memSize] at h
    rw [loadBytes, writeByte_ok m b (show a ≤ maxAddr by simp only [maxAddr]; omega)]
    exact ih _ (by simp only [memSize]; omega)

/-- The first byte of a record decides when it is out of range itself (log 21). -/
theorem loadBytes_cons_outside (m : Memory) {a : Nat} (b : Byte) (bs : List Byte) (h : maxAddr < a) :
    loadBytes m a (b :: bs) = .error (.addressRangeFault a) := by
  rw [loadBytes, writeByte_error m b h]

/-- A record that starts in memory and runs past its end faults at the first address beyond it. -/
theorem loadBytes_of_past (m : Memory) {a : Nat} {bs : List Byte} (ha : a ≤ memSize)
    (h : memSize < a + bs.length) : loadBytes m a bs = .error (.addressRangeFault memSize) := by
  induction bs generalizing m a with
  | nil => exact absurd h (Nat.not_lt.2 ha)
  | cons b rest ih =>
    rw [List.length_cons] at h
    rcases Nat.lt_or_eq_of_le ha with hlt | rfl
    · rw [loadBytes, writeByte_ok m b (Nat.le_of_lt_succ hlt)]
      exact ih _ hlt (by omega)
    · exact loadBytes_cons_outside m b rest (Nat.lt_succ_self maxAddr)

/-- Every byte of a record that was loaded has an address. -/
theorem loadBytes_ok_le {m m' : Memory} {a i : Nat} {bs : List Byte}
    (h : loadBytes m a bs = .ok m') (hi : i < bs.length) : a + i ≤ maxAddr := by
  by_contra hout
  by_cases ha : a ≤ memSize
  · rw [loadBytes_of_past m ha (by simp only [memSize, maxAddr] at *; omega)] at h
    cases h
  · cases bs with
    | nil => cases hi
    | cons b rest =>
      rw [loadBytes_cons_outside m b rest (by simp only [memSize, maxAddr] at *; omega)] at h
      cases h

theorem loadRecords_cons_ok {m m' : Memory} {r : TextRecord} {rs : List TextRecord}
    (h : loadRecords m (r :: rs) = .ok m') :
    ∃ m1, loadBytes m r.startAddress r.bytes = .ok m1 ∧ loadRecords m1 rs = .ok m' := by
  rw [loadRecords] at h
  split at h
  next m1 h1 => exact ⟨m1, h1, h⟩
  · cases h

theorem loadRecords_append_ok {m m' : Memory} {rs rs' : List TextRecord}
    (h : loadRecords m (rs ++ rs') = .ok m') :
    ∃ m1, loadRecords m rs = .ok m1 ∧ loadRecords m1 rs' = .ok m' := by
  induction rs generalizing m with
  | nil => exact ⟨m, rfl, h⟩
  | cons r rest ih =>
    obtain ⟨m1, h1, htail⟩ := loadRecords_cons_ok h
    obtain ⟨m2, h2, hlast⟩ := ih htail
    exact ⟨m2, by rw [loadRecords, h1]; exact h2, hlast⟩

/-- The byte a record puts at an address stands there if no later record covers it (R74). -/
theorem byteAt_loadRecords_last {m m' : Memory} {earlier later : List TextRecord} {r : TextRecord}
    {i : Nat} (h : loadRecords m (earlier ++ r :: later) = .ok m') (hi : i < r.bytes.length)
    (hlater : ∀ q ∈ later, ¬ covers q (r.startAddress + i)) :
    r.startAddress + i ≤ maxAddr ∧ m'.byteAt (r.startAddress + i) = r.bytes[i] := by
  obtain ⟨m1, -, h1⟩ := loadRecords_append_ok h
  obtain ⟨m2, h2, h3⟩ := loadRecords_cons_ok h1
  refine ⟨loadBytes_ok_le h2 hi, ?_⟩
  rw [byteAt_loadRecords_uncovered h3 hlater, loadBytes_ok h2,
    byteAt_storeAll_inside r.bytes m1 r.startAddress i hi]

/-- Settles O3: `byteAt_loadRecords_last` for any records, and R74's example run by the model. -/
theorem lastRecordCoveringAnAddressWins : Obligations.LastRecordCoveringAnAddressWins := by
  refine ⟨fun cfg earlier later r s i b h hb hlater => ?_, fun cfg => ⟨_, rfl, rfl, rfl, rfl⟩⟩
  obtain ⟨m, hm, rfl⟩ := load_ok h
  obtain ⟨hi, rfl⟩ := List.getElem?_eq_some_iff.1 hb
  obtain ⟨hle, hbyte⟩ := byteAt_loadRecords_last hm hi hlater
  rw [setMem_mem, readByte_ok m hle, hbyte]

theorem loadRecords_of_fit (m : Memory) {rs : List TextRecord}
    (h : ∀ r ∈ rs, r.startAddress + r.bytes.length ≤ memSize) :
    ∃ m', loadRecords m rs = .ok m' := by
  induction rs generalizing m with
  | nil => exact ⟨m, rfl⟩
  | cons r rest ih =>
    obtain ⟨hr, hrest⟩ := List.forall_mem_cons.1 h
    rw [loadRecords, loadBytes_of_fits m hr]
    exact ih _ hrest

/-- The first record that runs past the end of memory stops the loader (R73). -/
theorem loadRecords_of_past (m : Memory) {rs : List TextRecord} (hwf : ∀ r ∈ rs, r.wf)
    (h : ∃ r ∈ rs, memSize < r.startAddress + r.bytes.length) :
    loadRecords m rs = .error (.addressRangeFault memSize) := by
  induction rs generalizing m with
  | nil => simp at h
  | cons r rest ih =>
    obtain ⟨hr, hrest⟩ := List.forall_mem_cons.1 hwf
    by_cases hfit : r.startAddress + r.bytes.length ≤ memSize
    · have hpast := ((List.exists_mem_cons_iff _ _ _).1 h).resolve_left (Nat.not_lt.2 hfit)
      rw [loadRecords, loadBytes_of_fits m hfit]
      exact ih _ hrest hpast
    · rw [loadRecords, loadBytes_of_past m (Nat.le_succ_of_le hr) (Nat.lt_of_not_le hfit)]

/-- The loader's fault is `load`'s, which then gives no context (R73). -/
theorem load_error {cfg : Config} {records : List TextRecord} {r : HaltReason}
    (h : loadRecords [] records = .error r) : load cfg records = .error r := by
  rw [load, h]
  rfl

/-- Settles O4: both clauses for typed records, and one bad record by its first byte. -/
theorem loadFailsExactlyPastTheLastAddress : Obligations.LoadFailsExactlyPastTheLastAddress := by
  refine ⟨fun cfg records hwf => ⟨fun hfit => ?_, fun hpast => ?_⟩,
    fun cfg a b bs ha => ⟨?_, rfl⟩⟩
  · obtain ⟨m, hm⟩ := loadRecords_of_fit [] hfit
    exact ⟨setMem (State.fresh cfg) m, by rw [load, hm]; rfl⟩
  · exact load_error (loadRecords_of_past [] hwf hpast)
  · refine load_error ?_
    rw [loadRecords, loadBytes_cons_outside [] b bs ha]

/-- Settles O53: the loader keeps the canonical form, and a fresh SW is as it was built. -/
theorem loadEstablishesTheInvariant : Obligations.LoadEstablishesTheInvariant := by
  intro cfg records s hcfg h
  obtain ⟨m, hm, rfl⟩ := load_ok h
  exact ⟨wf_loadRecords wf_nil hm, hcfg, .inl rfl⟩

/-! ## What the next fetch finds -/

/-- Settles O18, by the two lemmas on a fetch whose opcode is known. -/
theorem operandFieldFetch : Obligations.OperandFieldFetch := by
  refine ⟨fun s mn hpc hmn => fetch_ok (by simp only [memSize]; omega) hmn, fun s mn hpc hmn => ?_⟩
  exact step_of_fetch_error (fetch_shortOperand (by simp only [maxAddr]; omega)
    (by simp only [memSize]; omega) hmn)

/-- A step runs what the three bytes at PC decode to (R120). -/
theorem step_of_decode {s : State} {i : Instr} {rest : List Byte} (hpc : s.pc.toNat + 3 ≤ memSize)
    (hd : decode s.cfg [s.mem.byteAt s.pc.toNat, s.mem.byteAt (s.pc.toNat + 1),
      s.mem.byteAt (s.pc.toNat + 2)] = .ok (i, rest)) : step s = exec i s := by
  obtain ⟨mn, hmn, rfl, -⟩ := decode_eq_ok_iff.1 hd
  exact step_of_fetch (fetch_ok hpc hmn)

/-- A word stored at PC is what the next step runs. -/
theorem step_of_storedWord {s : State} {m : Memory} {v : Word} {i : Instr} {rest : List Byte}
    (hpc : s.pc.toNat + 3 ≤ memSize) (hmem : s.mem = m.storeAll s.pc.toNat (wordBytes v))
    (hd : decode s.cfg (wordBytes v) = .ok (i, rest)) : step s = exec i s := by
  obtain ⟨hhi, hmid, hlo⟩ := byteAt_storeAll_wordBytes m s.pc.toNat v
  refine step_of_decode (rest := rest) hpc ?_
  rw [hmem, hhi, hmid, hlo]
  exact hd

/-- Settles O49: STA leaves its word where PC, advanced by 3, points. -/
theorem storedInstructionRunsNext : Obligations.StoredInstructionRunsNext := by
  intro s t o i hpc haddr hexec hd
  rw [exec_sta] at hexec
  obtain ⟨hfit, rfl⟩ := storeWord_next hexec
  have hnext : (s.pc + 3#24).toNat = effectiveAddress o s := by
    rw [haddr, BitVec.toNat_add, BitVec.toNat_ofNat]
    omega
  refine step_of_storedWord (m := s.mem) (v := s.a) ?_ ?_ hd
  · rw [setMem_pc, advance_pc, hnext]
    exact hfit
  · rw [setMem_pc, advance_pc, hnext]
    rfl

theorem tableBytes_eq_wordBytes (nbits w : Nat) :
    tableBytes nbits w = wordBytes (BitVec.ofNat 24 (w % 2 ^ nbits)) := rfl

theorem decodeTableWord_eq_some {nbits w : Nat} {i : Instr} (h : decodeTableWord nbits w = some i) :
    ∃ rest, decode defaultConfig (tableBytes nbits w) = .ok (i, rest) := by
  unfold decodeTableWord at h
  split at h
  next i' rest hd => cases h; exact ⟨rest, hd⟩
  · cases h

/-- The context an instruction is placed in: PC is written to 0 where it leaves no room (log 16). -/
def roomAtPc (s : State) : State :=
  if s.pc.toNat + 3 ≤ memSize then s else writeReg s .PC 0#24

theorem withFetchWord_eq (s : State) (nbits w : Nat) : s.withFetchWord nbits w =
    setMem (roomAtPc s)
      ((roomAtPc s).mem.storeAll (roomAtPc s).pc.toNat (tableBytes nbits w)) := rfl

theorem roomAtPc_fits (s : State) : (roomAtPc s).pc.toNat + 3 ≤ memSize := by
  unfold roomAtPc
  split
  next h => exact h
  · exact show (0#24).toNat + 3 ≤ memSize by decide

theorem roomAtPc_cfg (s : State) : (roomAtPc s).cfg = s.cfg := by
  unfold roomAtPc
  split <;> rfl

theorem readReg_roomAtPc {r : Reg} (s : State) (h : r ≠ .PC) :
    readReg (roomAtPc s) r = readReg s r := by
  unfold roomAtPc
  split
  · rfl
  · exact readReg_writeReg_ne s 0#24 h

theorem roomAtPc_pc (s : State) :
    (roomAtPc s).pc = if s.pc.toNat ≤ 32765 then s.pc else 0#24 := by
  have hiff : s.pc.toNat + 3 ≤ memSize ↔ s.pc.toNat ≤ 32765 := by simp only [memSize]; omega
  simp only [roomAtPc, hiff]
  split <;> rfl

/-- Settles O15: the word stands where PC points, with room for it. -/
theorem placedWordRunsNext : Obligations.PlacedWordRunsNext := by
  intro s nbits w i hcfg hd
  obtain ⟨rest, hrest⟩ := decodeTableWord_eq_some hd
  rw [withFetchWord_eq, tableBytes_eq_wordBytes]
  refine ⟨step_of_storedWord (rest := rest) (roomAtPc_fits s) rfl ?_, fun r hr => ?_, roomAtPc_pc s⟩
  · rw [setMem_cfg, roomAtPc_cfg, hcfg]
    exact hrest
  · rw [readReg_setMem, readReg_roomAtPc s hr]

/-! ## Word loads and stores -/

theorem loadWord_inside (r : Reg) {o : Operand} {s : State}
    (h : effectiveAddress o s + 3 ≤ memSize) :
    loadWord r o s = .next (writeReg (advance s) r (wordAt s.mem (effectiveAddress o s))) := by
  rw [loadWord_eq, withWord_inside _ h]

/-- Settles O32: the three loads are `loadWord` of their registers. -/
theorem wordLoadResult : Obligations.WordLoadResult := by
  intro o s h
  have hfit : effectiveAddress o s + 3 ≤ memSize := by simp only [memSize]; omega
  rw [exec_lda, exec_ldx, exec_ldl]
  exact ⟨loadWord_inside .A hfit, loadWord_inside .X hfit, loadWord_inside .L hfit⟩

/-- The word store of any register but PC, which is advanced before it is read. -/
theorem storeWord_result {r : Reg} (hr : r ≠ .PC) {o : Operand} {s : State}
    (h : effectiveAddress o s + 3 ≤ memSize) :
    ∃ m, storeWord r o s = .next { s with mem := m, pc := s.pc + 3#24 } ∧
      m.byteAt (effectiveAddress o s) = (readReg s r).extractLsb' 16 8 ∧
      m.byteAt (effectiveAddress o s + 1) = (readReg s r).extractLsb' 8 8 ∧
      m.byteAt (effectiveAddress o s + 2) = (readReg s r).extractLsb' 0 8 ∧
      ∀ b, b < effectiveAddress o s ∨ effectiveAddress o s + 3 ≤ b →
        m.byteAt b = s.mem.byteAt b := by
  obtain ⟨hhi, hmid, hlo⟩ := byteAt_storeAll_wordBytes s.mem (effectiveAddress o s) (readReg s r)
  have hstore := storeWord_inside r h
  rw [readReg_advance s hr] at hstore
  exact ⟨_, hstore, hhi, hmid, hlo,
    fun b hb => byteAt_storeAll_outside (wordBytes (readReg s r)) s.mem hb⟩

/-- Settles O34: the four stores are `storeWord` of their registers. -/
theorem wordStoreResult : Obligations.WordStoreResult := by
  intro o s i v h hi
  have hfit : effectiveAddress o s + 3 ≤ memSize := by simp only [memSize]; omega
  rcases hi with ⟨rfl, rfl⟩ | ⟨rfl, rfl⟩ | ⟨rfl, rfl⟩ | ⟨rfl, rfl⟩
  · rw [exec_sta]
    exact storeWord_result (r := .A) (by decide) hfit
  · rw [exec_stl]
    exact storeWord_result (r := .L) (by decide) hfit
  · rw [exec_stx]
    exact storeWord_result (r := .X) (by decide) hfit
  · rw [exec_stsw]
    exact storeWord_result (r := .SW) (by decide) hfit

end Sys2Proof.Proofs.MainMemory
end

section
/-! Proofs of the statements about the opcode table (spec/30_encoding.md): how many bytes are illegal under
any table (O12), and single words under the default table (O13). -/

namespace Sys2Proof.Proofs.Encoding

open Sys2Proof Sys2Proof.Machine Sys2Proof.Proofs.MachineState

/-! ## Counting the opcode bytes -/

theorem lookupOpcode_isSome_iff {c : Config} {op : Byte} :
    (lookupOpcode c op).isSome ↔ op ∈ c.optab.map Prod.fst := by
  rw [← not_iff_not, Option.not_isSome_iff_eq_none, lookupOpcode, List.lookup_eq_none_iff]
  simp only [List.mem_map, not_exists, not_and, bne_iff_ne, ne_eq, eq_comm (a := op)]

/-- A table that meets R101 lists the 27 mnemonics once each. -/
theorem optab_length {c : Config} (hmns : c.mnemonicsDistinct) (hall : c.mnemonicsComplete) :
    c.optab.length = 27 := by
  have hperm : (c.optab.map Prod.snd).Perm Mnemonic.all :=
    (List.perm_ext_iff_of_nodup hmns (by decide)).2 fun mn =>
      iff_of_true (hall mn (mnemonic_mem_all mn)) (mnemonic_mem_all mn)
  simpa [Mnemonic.all] using hperm.length_eq

/-- The byte values a table knows are its keys, each once, if no key is listed twice. -/
theorem legalBytes_perm_keys {c : Config} (hkeys : c.keysDistinct) :
    ((List.range 256).filter fun n => (lookupOpcode c (BitVec.ofNat 8 n)).isSome).Perm
      ((c.optab.map Prod.fst).map BitVec.toNat) := by
  refine (List.perm_ext_iff_of_nodup (List.nodup_range.filter _)
    (hkeys.map fun _ _ => BitVec.eq_of_toNat_eq)).2 fun n => ?_
  rw [List.mem_filter, List.mem_range, lookupOpcode_isSome_iff,
    List.mem_map (f := BitVec.toNat)]
  constructor
  · rintro ⟨hn, hkey⟩
    exact ⟨_, hkey, (BitVec.toNat_ofNat n 8).trans (Nat.mod_eq_of_lt hn)⟩
  · rintro ⟨op, hkey, rfl⟩
    exact ⟨op.isLt, by rwa [BitVec.ofNat_toNat, BitVec.setWidth_eq]⟩

/-- Settles O12: 27 of the 256 byte values are keys, one for each mnemonic, and the others are illegal. -/
theorem illegalOpcodeBytesNumber229 : Obligations.IllegalOpcodeBytesNumber229 := by
  rintro c ⟨hkeys, hmns, hall, -⟩
  have hlegal := (legalBytes_perm_keys hkeys).length_eq
  have hsplit := List.length_eq_length_filter_add (l := List.range 256)
    fun n => (lookupOpcode c (BitVec.ofNat 8 n)).isSome
  simp only [List.length_map, optab_length hmns hall] at hlegal
  simp only [List.length_range, hlegal, Option.not_isSome] at hsplit
  omega

/-! ## Single words under the default table -/

/-- Settles O13: the decoder, run on each word. The last opcode byte differs from that of ADD in bit 0
alone, so all eight bits take part in the lookup (R93). -/
theorem defaultTableWordsDecode : Obligations.DefaultTableWordsDecode :=
  ⟨rfl, rfl, rfl, rfl, rfl, rfl, rfl, rfl⟩

end Sys2Proof.Proofs.Encoding
end

section
/-! Proofs of the statements about the cycle of a step (spec/40_step_cycle.md): what it runs (O14), the faults of
its steps 1 to 3 (O16, O17, O19), the halts of step 5 (O22, O23, O36), what a step answers and leaves (O20, O21),
and the end of a run (O54). -/

namespace Sys2Proof.Proofs.StepCycle

open Sys2Proof Sys2Proof.Machine Sys2Proof.Claims Sys2Proof.Proofs.Scope
  Sys2Proof.Proofs.MachineState Sys2Proof.Proofs.MainMemory

/-! ## The instruction at PC -/

/-- Settles O14, by `step_of_decode`. -/
theorem stepRunsTheDecodedInstruction : Obligations.StepRunsTheDecodedInstruction :=
  fun _ _ hpc hd => step_of_decode (by simp only [memSize]; omega) hd

/-! ## The effective address -/

/-- Whatever an instruction does later, its effective address is checked first (R128). -/
theorem exec_outside {i : Instr} {s : State} (h : maxAddr < effectiveAddress i.operand s) :
    exec i s = raise (.addressRangeFault (effectiveAddress i.operand s)) s := by
  cases i with simp only [Instr.operand] at h ⊢
  | lda o | ldx o | ldl o =>
    simp only [exec_lda, exec_ldx, exec_ldl, loadWord, withWord, withOperand_outside _ h]
  | add o | sub o | mul o | div o | and o | or o | comp o | tix o =>
    simp only [exec_add, exec_sub, exec_mul, exec_div, exec_and, exec_or, exec_comp, exec_tix,
      withWord, withOperand_outside _ h]
  | sta o | stx o | stl o | stsw o =>
    simp only [exec_sta, exec_stx, exec_stl, exec_stsw, storeWord, withOperand_outside _ h]
  | ldch o | stch o =>
    simp only [exec_ldch_eq, exec_stch_eq, withOperand_outside _ h]
  | jeq o | jgt o | jlt o =>
    simp only [exec_jeq, exec_jgt, exec_jlt, jumpIf_eq, withOperand_outside _ h]
  | j o | jsub o | rsub o | xos o =>
    simp only [exec_j, exec_jsub, exec_rsub, exec_xos, withOperand_outside _ h]
  | rd o | wd o | td o =>
    simp only [exec_rd, exec_wd, exec_td, withAbsentDevice, withOperand_outside _ h]

theorem effectiveAddress_eq (o : Operand) (s : State) :
    effectiveAddress o s = o.magnitude + if o.indexed then s.x.toNat else 0 := by
  unfold effectiveAddress
  split <;> rfl

/-- Settles O19, by `exec_outside`. -/
theorem outOfRangeOperandHaltsEveryInstruction :
    Obligations.OutOfRangeOperandHaltsEveryInstruction := by
  intro i s m hm h
  rw [← effectiveAddress_eq] at hm
  subst hm
  exact exec_outside h

/-! ## Words past the last address -/

theorem exec_of_mem_wordReaders {i : Instr} (s : State) (h : i.mnemonic ∈ wordReaders) :
    ∃ k, exec i s = withWord i.operand s k := by
  cases i with
  | lda o => exact ⟨_, (exec_lda o s).trans (loadWord_eq o s .A)⟩
  | ldx o => exact ⟨_, (exec_ldx o s).trans (loadWord_eq o s .X)⟩
  | ldl o => exact ⟨_, (exec_ldl o s).trans (loadWord_eq o s .L)⟩
  | add o => exact ⟨_, exec_add o s⟩
  | sub o => exact ⟨_, exec_sub o s⟩
  | mul o => exact ⟨_, exec_mul o s⟩
  | div o => exact ⟨_, exec_div o s⟩
  | and o => exact ⟨_, exec_and o s⟩
  | or o => exact ⟨_, exec_or o s⟩
  | comp o => exact ⟨_, exec_comp o s⟩
  | tix o => exact ⟨_, exec_tix o s⟩
  | _ => simp [wordReaders] at h

theorem exec_of_mem_wordWriters {i : Instr} (s : State) (h : i.mnemonic ∈ wordWriters) :
    ∃ r, exec i s = storeWord r i.operand s := by
  cases i with
  | sta o => exact ⟨_, exec_sta o s⟩
  | stx o => exact ⟨_, exec_stx o s⟩
  | stl o => exact ⟨_, exec_stl o s⟩
  | stsw o => exact ⟨_, exec_stsw o s⟩
  | _ => simp [wordWriters] at h

/-- A word access that would run past the last address halts in step 5 (R130, R190). -/
theorem exec_wordPastEnd {i : Instr} {s : State} (hi : i.mnemonic ∈ wordReaders ++ wordWriters)
    (hle : effectiveAddress i.operand s ≤ maxAddr)
    (hpast : memSize < effectiveAddress i.operand s + 3) :
    exec i s = raise (.addressRangeFault memSize) (advance s) := by
  rcases List.mem_append.1 hi with hr | hw
  · obtain ⟨k, hk⟩ := exec_of_mem_wordReaders s hr
    rw [hk, withWord_short k hle hpast]
  · obtain ⟨r, hr⟩ := exec_of_mem_wordWriters s hw
    rw [hr, storeWord_short r hle hpast]

/-- Settles O36, by `exec_wordPastEnd` at the two addresses. -/
theorem wordAccessPastTheEndHalts : Obligations.WordAccessPastTheEndHalts :=
  fun _ _ hi h => exec_wordPastEnd hi (by simp only [maxAddr]; omega) (by simp only [memSize]; omega)

/-! ## What step 5 answers -/

/-- The exact result of an arithmetic instruction on two signed words (R151 to R154). -/
def exactResult : Instr → Int → Int → Option Int
  | .add _, a, w => some (a + w)
  | .sub _, a, w => some (a - w)
  | .mul _, a, w => some (a * w)
  | .div _, a, w => some (a.tdiv w)
  | _, _, _ => none

/-- The causes for which step 5 of an instruction halts, each with its reason (R264 (c), R265, R266, R268). -/
inductive HaltCause (s : State) : Instr → HaltReason → Prop where
  | wordPastEnd {i : Instr} (hi : i.mnemonic ∈ wordReaders ++ wordWriters)
      (hpast : memSize < effectiveAddress i.operand s + 3) :
      HaltCause s i (.addressRangeFault memSize)
  | outOfRange {i : Instr} {v : Int} (hfit : effectiveAddress i.operand s + 3 ≤ memSize)
      (hv : exactResult i (sgn24 s.a) (sgn24 (wordAt s.mem (effectiveAddress i.operand s))) = some v)
      (hout : ¬ inRange v) : HaltCause s i (.arithmeticRangeFault i.mnemonic)
  | zeroDivisor {o : Operand} (hfit : effectiveAddress o s + 3 ≤ memSize)
      (hw : wordAt s.mem (effectiveAddress o s) = 0#24) : HaltCause s (.div o) .divisionByZeroFault
  | xos (o : Operand) : HaltCause s (.xos o) .normalHalt

/-- What step 5 of an instruction may answer: a next state, the refusal of an attached device, or a halt for
one of the causes, with PC advanced and nothing else changed (R131). -/
inductive Step5Answer (s : State) (i : Instr) : Result → Prop where
  | next (t : State) : Step5Answer s i (.next t)
  | refused (q : Refusal) (hd : s.cfg.device = .attached)
      (hi : ∃ o, i = .rd o ∨ i = .wd o ∨ i = .td o) : Step5Answer s i (.refused q)
  | halt {r : HaltReason} (hr : HaltCause s i r) : Step5Answer s i (raise r (advance s))

section
variable {s : State} {i : Instr} (hle : effectiveAddress i.operand s ≤ maxAddr)
include hle

theorem step5Answer_withWord {k : Word → State → Result} (hi : i.mnemonic ∈ wordReaders)
    (hk : effectiveAddress i.operand s + 3 ≤ memSize →
      Step5Answer s i (k (wordAt s.mem (effectiveAddress i.operand s)) (advance s))) :
    Step5Answer s i (withWord i.operand s k) := by
  by_cases hfit : effectiveAddress i.operand s + 3 ≤ memSize
  · rw [withWord_inside k hfit]
    exact hk hfit
  · rw [withWord_short k hle (by omega)]
    exact .halt (.wordPastEnd (List.mem_append_left _ hi) (by omega))

theorem step5Answer_storeWord (r : Reg) (hi : i.mnemonic ∈ wordWriters) :
    Step5Answer s i (storeWord r i.operand s) := by
  by_cases hfit : effectiveAddress i.operand s + 3 ≤ memSize
  · rw [storeWord_inside r hfit]
    exact .next _
  · rw [storeWord_short r hle (by omega)]
    exact .halt (.wordPastEnd (List.mem_append_right _ hi) (by omega))

theorem step5Answer_withAbsentDevice (mn : Mnemonic) (hi : ∃ o, i = .rd o ∨ i = .wd o ∨ i = .td o) :
    Step5Answer s i (withAbsentDevice mn i.operand s fun _ s1 => .next s1) := by
  cases hd : s.cfg.device with
  | absent =>
    rw [withAbsentDevice_absent mn _ hle hd]
    exact .next _
  | attached =>
    rw [withAbsentDevice_attached mn _ hle hd]
    exact .refused _ hd hi

end

theorem step5Answer_commitA {s : State} {i : Instr} {v : Int}
    (hfit : effectiveAddress i.operand s + 3 ≤ memSize)
    (hv : exactResult i (sgn24 s.a) (sgn24 (wordAt s.mem (effectiveAddress i.operand s))) = some v) :
    Step5Answer s i (commitA i.mnemonic v (advance s)) := by
  by_cases hin : inRange v
  · rw [commitA_inRange _ _ hin]
    exact .next _
  · rw [commitA_outOfRange _ _ hin]
    exact .halt (.outOfRange hfit hv hin)

/-- Everything an instruction can answer once its effective address is in range. -/
theorem exec_inside {i : Instr} {s : State} (hle : effectiveAddress i.operand s ≤ maxAddr) :
    Step5Answer s i (exec i s) := by
  cases i with
  | lda o | ldx o | ldl o =>
    simp only [exec_lda, exec_ldx, exec_ldl, loadWord_eq]
    exact step5Answer_withWord hle (by simp [wordReaders]) fun _ => .next _
  | and o | or o | comp o | tix o =>
    simp only [exec_and, exec_or, exec_comp, exec_tix]
    exact step5Answer_withWord hle (by simp [wordReaders]) fun _ => .next _
  | add o | sub o | mul o =>
    simp only [exec_add, exec_sub, exec_mul]
    exact step5Answer_withWord hle (by simp [wordReaders]) fun hfit => step5Answer_commitA hfit rfl
  | div o =>
    rw [exec_div]
    refine step5Answer_withWord hle (by simp [wordReaders]) fun hfit => ?_
    split
    next hw => exact .halt (.zeroDivisor hfit (sgn24_eq_zero.1 hw))
    · refine step5Answer_commitA hfit ?_
      rw [quotient_eq_tdiv]
      rfl
  | sta o | stx o | stl o | stsw o =>
    simp only [exec_sta, exec_stx, exec_stl, exec_stsw]
    exact step5Answer_storeWord hle _ (by simp [wordWriters])
  | ldch o =>
    rw [exec_ldch (o := o) hle]
    exact .next _
  | stch o =>
    rw [exec_stch (o := o) hle]
    exact .next _
  | jeq o | jgt o | jlt o =>
    simp only [exec_jeq, exec_jgt, exec_jlt, jumpIf_result _ (o := o) hle]
    exact .next _
  | j o | jsub o | rsub o =>
    simp only [exec_j, exec_jsub, exec_rsub, withOperand_inside (o := o) _ hle]
    exact .next _
  | rd o | wd o | td o =>
    simp only [exec_rd, exec_wd, exec_td]
    exact step5Answer_withAbsentDevice hle _ (by simp)
  | xos o =>
    rw [exec_xos, withOperand_inside (o := o) _ hle]
    exact .halt (.xos o)

/-! ## Where a halt comes from -/

/-- The faults of steps 1 and 2 and of the operand field's fetch. -/
theorem fetch_error {s : State} {r : HaltReason} (h : fetch s = .error r) :
    (maxAddr < s.pc.toNat ∧ r = .programCounterFault s.pc) ∨
    (s.pc.toNat ≤ maxAddr ∧ lookupOpcode s.cfg (s.mem.byteAt s.pc.toNat) = none ∧
      r = .unrecognizedOpcodeFault s.pc.toNat (s.mem.byteAt s.pc.toNat)) ∨
    r = .addressRangeFault memSize := by
  rcases fetch_cases s with ⟨hpc, he⟩ | ⟨hpc, hop, he⟩ | ⟨-, -, -, he⟩ | ⟨-, mn, -, he⟩ <;>
    rw [he] at h <;> cases h
  · exact .inl ⟨hpc, rfl⟩
  · exact .inr (.inl ⟨hpc, hop, rfl⟩)
  · exact .inr (.inr rfl)

/-- Everything a halting step can be: the fetch failed, the effective address is out of range, or step 5 of
the fetched instruction halts for one of its causes. -/
theorem step_halt {s left : State} {r : HaltReason} (h : step s = .fault (.halt r left)) :
    (fetch s = .error r ∧ left = s) ∨
    ∃ i, fetch s = .ok i ∧
      ((maxAddr < effectiveAddress i.operand s ∧
          r = .addressRangeFault (effectiveAddress i.operand s) ∧ left = s) ∨
        (effectiveAddress i.operand s ≤ maxAddr ∧ HaltCause s i r ∧ left = pcAdvanced s)) := by
  cases hf : fetch s with
  | error r' =>
    rw [step_of_fetch_error hf] at h
    cases h
    exact .inl ⟨rfl, rfl⟩
  | ok i =>
    rw [step_of_fetch hf] at h
    refine .inr ⟨i, rfl, ?_⟩
    by_cases hle : effectiveAddress i.operand s ≤ maxAddr
    · have hans := exec_inside hle
      rw [h] at hans
      cases hans with
      | halt hr => exact .inr ⟨hle, hr, rfl⟩
    · rw [exec_outside (by omega)] at h
      cases h
      exact .inl ⟨by omega, rfl, rfl⟩

/-- A fault that names no address comes from the fetch, or for a cause of step 5. -/
theorem step_halt_of_ne {s left : State} {r : HaltReason} (h : step s = .fault (.halt r left))
    (hr : ∀ a, r ≠ .addressRangeFault a) :
    (fetch s = .error r ∧ left = s) ∨
    ∃ i, fetch s = .ok i ∧ effectiveAddress i.operand s ≤ maxAddr ∧ HaltCause s i r ∧
      left = pcAdvanced s := by
  rcases step_halt h with hf | ⟨i, hi, ⟨-, ha, -⟩ | hc⟩
  · exact .inl hf
  · exact absurd ha (hr _)
  · exact .inr ⟨i, hi, hc⟩

/-- Settles O20: the three ways a step halts, each with the state it leaves. -/
theorem haltLeavesTheDocumentedState : Obligations.HaltLeavesTheDocumentedState := by
  intro s left r h
  rcases step_halt h with ⟨hf, hl⟩ | ⟨i, hf, ⟨hout, -, hl⟩ | ⟨hle, -, hl⟩⟩
  · exact .inl ⟨.inl hf, hl⟩
  · exact .inl ⟨.inr ⟨i, hf, hout⟩, hl⟩
  · exact .inr ⟨i, hf, hle, hl⟩

/-! ## The faults of the fetch -/

/-- Settles O16: of the faults a step can raise only the first check's is a `ProgramCounterFault`. -/
theorem programCounterFaultExactlyAbove32767 : Obligations.ProgramCounterFaultExactlyAbove32767 := by
  have above (s : State) (h : 32767 < s.pc.toNat) :
      step s = .fault (.halt (.programCounterFault s.pc) s) := step_of_fetch_error (fetch_pcFault h)
  refine ⟨above, fun s left v h => ?_, above State.reset (by decide)⟩
  rcases step_halt_of_ne h nofun with ⟨hf, -⟩ | ⟨i, -, -, hc, -⟩
  · rcases fetch_error hf with ⟨hpc, -⟩ | ⟨-, -, hr⟩ | hr
    · exact hpc
    · cases hr
    · cases hr
  · cases hc

/-- Settles O17: of the faults a step can raise only the lookup's is an `UnrecognizedOpcodeFault`. -/
theorem unrecognizedOpcodeFaultExactlyOnUnknownByte :
    Obligations.UnrecognizedOpcodeFaultExactlyOnUnknownByte := by
  refine ⟨fun s hpc hop => step_of_fetch_error (fetch_unrecognized hpc hop), fun s left p op h => ?_⟩
  rcases step_halt_of_ne h nofun with ⟨hf, hl⟩ | ⟨i, -, -, hc, -⟩
  · rcases fetch_error hf with ⟨-, hr⟩ | ⟨hpc, hop, hr⟩ | hr
    · cases hr
    · cases hr
      exact ⟨hpc, hop, rfl, rfl, hl⟩
    · cases hr
  · cases hc

/-- A halt that names neither PC, nor a byte, nor an address comes from a cause of step 5. -/
theorem step_halt_step5 {s left : State} {r : HaltReason} (h : step s = .fault (.halt r left))
    (hpc : ∀ v, r ≠ .programCounterFault v) (hop : ∀ p op, r ≠ .unrecognizedOpcodeFault p op)
    (haddr : ∀ a, r ≠ .addressRangeFault a) :
    ∃ i, fetch s = .ok i ∧ effectiveAddress i.operand s ≤ maxAddr ∧ HaltCause s i r ∧
      left = pcAdvanced s := by
  rcases step_halt_of_ne h haddr with ⟨hf, -⟩ | hc
  · rcases fetch_error hf with ⟨-, hr⟩ | ⟨-, -, hr⟩ | hr
    · exact absurd hr (hpc _)
    · exact absurd hr (hop _ _)
    · exact absurd hr (haddr _)
  · exact hc

/-! ## The halts of step 5 -/

/-- Settles O22: XOS is the one cause of `NormalHalt`, and has no other outcome in range. -/
theorem normalHaltExactlyFromXos : Obligations.NormalHaltExactlyFromXos := by
  intro s
  constructor
  · rintro ⟨left, h⟩
    obtain ⟨i, hf, hle, hc, -⟩ := step_halt_step5 h nofun nofun nofun
    cases hc with
    | xos o => exact ⟨o, hf, hle⟩
  · rintro ⟨o, hf, hle⟩
    refine ⟨advance s, ?_⟩
    rw [step_of_fetch hf, exec_xos, withOperand_inside _ hle]
    rfl

/-- DIV by a readable zero word (R154, R266). -/
theorem exec_div_zero {o : Operand} {s : State} (hfit : effectiveAddress o s + 3 ≤ memSize)
    (hw : wordAt s.mem (effectiveAddress o s) = 0#24) :
    exec (.div o) s = raise .divisionByZeroFault (advance s) := by
  rw [exec_div, withWord_inside _ hfit, if_pos (sgn24_eq_zero.2 hw)]

/-- Settles O23: the two arithmetic faults have one cause each. -/
theorem arithmeticFaultsOnlyFromTheirInstructions :
    Obligations.ArithmeticFaultsOnlyFromTheirInstructions := by
  refine ⟨fun s left mn h => ?_, fun s left h => ?_, fun s o hf hfit hw => ?_⟩
  · obtain ⟨i, hf, -, hc, hl⟩ := step_halt_step5 h nofun nofun nofun
    cases hc with
    | outOfRange hfit hv hout =>
      refine ⟨hl, i.operand, Nat.le_of_add_le_add_right hfit, ?_⟩
      cases i with
      | add o => cases hv; exact .inl ⟨rfl, hf, hout⟩
      | sub o => cases hv; exact .inr (.inl ⟨rfl, hf, hout⟩)
      | mul o => cases hv; exact .inr (.inr (.inl ⟨rfl, hf, hout⟩))
      | div o => cases hv; exact .inr (.inr (.inr ⟨rfl, hf, hout⟩))
      | _ => cases hv
  · obtain ⟨i, hf, -, hc, hl⟩ := step_halt_step5 h nofun nofun nofun
    cases hc with
    | zeroDivisor hfit hw => exact ⟨hl, _, Nat.le_of_add_le_add_right hfit, hf, hw⟩
  · rw [step_of_fetch hf]
    exact exec_div_zero (Nat.add_le_add_right hfit 3) hw

/-! ## Every context has an answer -/

/-- Settles O21: out of range every instruction halts, and in range `exec_inside` lists the answers. -/
theorem stepAnswersOnEveryContext : Obligations.StepAnswersOnEveryContext := by
  intro s
  cases hf : fetch s with
  | error r => exact .inr (.inl ⟨r, s, step_of_fetch_error hf⟩)
  | ok i =>
    rw [step_of_fetch hf]
    by_cases hle : effectiveAddress i.operand s ≤ maxAddr
    · generalize hres : exec i s = res
      have hans : Step5Answer s i res := hres ▸ exec_inside hle
      cases hans with
      | next t => exact .inl ⟨t, rfl⟩
      | halt hr => exact .inr (.inl ⟨_, _, rfl⟩)
      | refused q hd hi =>
        obtain ⟨o, hi⟩ := hi
        exact .inr (.inr ⟨hd, o, by simpa using hi⟩)
    · exact .inr (.inl ⟨_, s, exec_outside (by omega)⟩)

/-! ## The end of a run -/

theorem step_ne_registerFormatFault (s left : State) :
    step s ≠ .fault (.halt .registerFormatFault left) := by
  intro h
  obtain ⟨i, -, -, hc, -⟩ := step_halt_step5 h nofun nofun nofun
  cases hc

/-- A step has one result, so two runs from a state part nowhere. -/
theorem runEnds_unique {s left left' : State} {r r' : HaltReason} (h : RunEnds s r left)
    (h' : RunEnds s r' left') : r = r' ∧ left = left' := by
  induction h with
  | halts hs =>
    cases h' with
    | halts hs' => cases hs.symm.trans hs'; exact ⟨rfl, rfl⟩
    | continues hs' _ => cases hs.symm.trans hs'
  | continues hs _ ih =>
    cases h' with
    | halts hs' => cases hs.symm.trans hs'
    | continues hs' hrest => cases hs.symm.trans hs'; exact ih hrest

theorem runEnds_ne_registerFormatFault {s left : State} {r : HaltReason} (h : RunEnds s r left) :
    r ≠ .registerFormatFault := by
  induction h with
  | halts hs => rintro rfl; exact step_ne_registerFormatFault _ _ hs
  | continues _ _ ih => exact ih

/-- Settles O54, each part by induction on the run. -/
theorem aRunHasOneEnd : Obligations.ARunHasOneEnd := by
  intro s left left' r r' h h'
  obtain ⟨hr, hl⟩ := runEnds_unique h h'
  exact ⟨hr, hl, runEnds_ne_registerFormatFault h⟩

end Sys2Proof.Proofs.StepCycle
end

section
/-! Proofs of the statements about arithmetic, logic and compare (spec/41_arithmetic_logic_compare.md): the
arithmetic instructions (O25 to O28), the one quotient out of range (O29), AND and OR (O30), COMP (O31). -/

namespace Sys2Proof.Proofs.Arithmetic

open Sys2Proof Sys2Proof.Machine Sys2Proof.Proofs.StepCycle

/-! ## The exact result in A, or the range fault -/

/-- The end of every arithmetic instruction: the exact result, whichever it is, meets the range test (R150). -/
theorem commitA_result (mn : Mnemonic) (v : Int) (s : State) :
    (-8388608 ≤ v ∧ v ≤ 8388607 →
      commitA mn v (advance s) = .next { s with a := enc24 v, pc := s.pc + 3#24 }) ∧
    (v < -8388608 ∨ 8388607 < v →
      commitA mn v (advance s) =
        .fault (.halt (.arithmeticRangeFault mn) { s with pc := s.pc + 3#24 })) := by
  refine ⟨fun hin => commitA_inRange mn (advance s) hin, fun hout => ?_⟩
  have hnot : ¬ inRange v := by simp only [inRange, aMin, aMax]; omega
  exact commitA_outOfRange mn (advance s) hnot

/-- Settles O25, by `commitA_result` of the sum. -/
theorem addResult : Obligations.AddResult := by
  rintro o s _ h rfl
  rw [exec_add, withWord_inside _ (Nat.add_le_add_right h 3)]
  exact commitA_result .add _ s

/-- Settles O26, by `commitA_result` of the difference. -/
theorem subResult : Obligations.SubResult := by
  rintro o s _ h rfl
  rw [exec_sub, withWord_inside _ (Nat.add_le_add_right h 3)]
  exact commitA_result .sub _ s

/-- Settles O27, by `commitA_result` of the product. -/
theorem mulResult : Obligations.MulResult := by
  rintro o s _ h rfl
  rw [exec_mul, withWord_inside _ (Nat.add_le_add_right h 3)]
  exact commitA_result .mul _ s

/-! ## Division -/

/-- DIV by a readable word that is not zero (R154). -/
theorem exec_div_nonzero {o : Operand} {s : State} (hfit : effectiveAddress o s + 3 ≤ memSize)
    (hw : sgn24 (wordAt s.mem (effectiveAddress o s)) ≠ 0) :
    exec (.div o) s =
      commitA .div ((sgn24 s.a).tdiv (sgn24 (wordAt s.mem (effectiveAddress o s)))) (advance s) := by
  rw [exec_div, withWord_inside _ hfit, if_neg hw, quotient_eq_tdiv, advance_a]

/-- Settles O28: `exec_div_zero`, and `commitA_result` of the quotient by another word. -/
theorem divResult : Obligations.DivResult := by
  rintro o s _ _ h rfl rfl
  have hfit : effectiveAddress o s + 3 ≤ memSize := Nat.add_le_add_right h 3
  obtain ⟨hin, hout⟩ := commitA_result .div
    ((sgn24 s.a).tdiv (sgn24 (wordAt s.mem (effectiveAddress o s)))) s
  exact ⟨fun hz => exec_div_zero hfit (sgn24_eq_zero.1 hz),
    fun hnz hv => (exec_div_nonzero hfit hnz).trans (hin hv),
    fun hnz hv => (exec_div_nonzero hfit hnz).trans (hout hv)⟩

theorem sgn24_inj {v w : Word} : sgn24 v = sgn24 w ↔ v = w :=
  ⟨sgn24_injective, fun h => h ▸ rfl⟩

/-- A divisor other than -1 keeps the quotient in range: 1 keeps the dividend, and any other at least halves
its magnitude. -/
theorem inRange_tdiv {a w : Int} (ha : inRange a) (hzero : w ≠ 0) (hneg : w ≠ -1) :
    inRange (a.tdiv w) := by
  by_cases hone : w = 1
  · rwa [hone, Int.tdiv_one]
  · have habs : (a.tdiv w).natAbs = a.natAbs / w.natAbs := Int.natAbs_tdiv a w
    have hhalf : a.natAbs / w.natAbs ≤ a.natAbs / 2 := Nat.div_le_div_left (by omega) (by decide)
    simp only [inRange, aMin, aMax] at ha ⊢
    omega

/-- The divisor -1 negates, and the range has no negation for its least value alone. -/
theorem not_inRange_tdiv_iff {a w : Int} (ha : inRange a) (hzero : w ≠ 0) :
    ¬ inRange (a.tdiv w) ↔ a = -8388608 ∧ w = -1 := by
  by_cases hneg : w = -1
  · rw [hneg, Int.tdiv_neg, Int.tdiv_one]
    simp only [inRange, aMin, aMax, and_true] at ha ⊢
    omega
  · exact iff_of_false (not_not_intro (inRange_tdiv ha hzero hneg)) fun h => hneg h.2

/-- Settles O29: `not_inRange_tdiv_iff` on the signed readings, which tell the words apart. -/
theorem onlyOneQuotientIsOutOfRange : Obligations.OnlyOneQuotientIsOutOfRange := by
  intro a w hw
  have hmin : sgn24 0x800000#24 = -8388608 := by decide
  have hneg : sgn24 0xFFFFFF#24 = -1 := by decide
  rw [quotient_eq_tdiv, not_inRange_tdiv_iff (sgn24_bounds a) (mt sgn24_eq_zero.1 hw), ← hmin, ← hneg,
    sgn24_inj, sgn24_inj]

/-! ## Logic and compare -/

/-- Settles O30: both instructions write A after the word is read, with no range test. -/
theorem andOrResult : Obligations.AndOrResult := by
  intro o s h
  have hfit : effectiveAddress o s + 3 ≤ memSize := Nat.add_le_add_right h 3
  rw [exec_and, exec_or, withWord_inside _ hfit, withWord_inside _ hfit]
  exact ⟨rfl, rfl⟩

/-- COMP of a readable word writes the code of the comparison, whichever it is (R157). -/
theorem exec_comp_result {o : Operand} {s : State} (hfit : effectiveAddress o s + 3 ≤ memSize) :
    exec (.comp o) s = .next { s with
      sw := conditionCode s.cfg
        (compareInts (sgn24 s.a) (sgn24 (wordAt s.mem (effectiveAddress o s))))
      pc := s.pc + 3#24 } := by
  rw [exec_comp, withWord_inside _ hfit]
  rfl

/-- Settles O31: the three outcomes of the comparison in `exec_comp_result`. -/
theorem compResult : Obligations.CompResult := by
  rintro o s _ h rfl
  rw [exec_comp_result (Nat.add_le_add_right h 3)]
  refine ⟨fun hlt => ?_, fun heq => ?_, fun hgt => ?_⟩
  · rw [compareInts_lt hlt, conditionCode]
  · rw [compareInts_eq heq, conditionCode]
  · rw [compareInts_gt hgt, conditionCode]

end Sys2Proof.Proofs.Arithmetic
end

section
/-! Proofs of the statements about the character load and store (spec/42_load_store.md): LDCH (O33) and
STCH (O35). Their word counterparts (O32, O34) stand with memory. -/

namespace Sys2Proof.Proofs.LoadStore

open Sys2Proof Sys2Proof.Machine

/-- Settles O33, by `exec_ldch`: A is written after PC is advanced. -/
theorem ldchResult : Obligations.LdchResult := fun _ _ h => exec_ldch h

/-- Settles O35, by `exec_stch` and by what a store leaves at its own address and at another. -/
theorem stchResult : Obligations.StchResult := fun _ s h =>
  ⟨_, exec_stch h, byteAt_store_same s.mem _ _, fun _ hb => byteAt_store_ne s.mem _ hb⟩

end Sys2Proof.Proofs.LoadStore
end

section
/-! Proofs of the statements about jumps, subroutine linkage and the index instruction
(spec/43_jump_subroutine_index.md): J, JSUB and RSUB (O37), TIX (O40), and PC after each instruction (O46).
The conditional jumps (O38, O39) stand with the state. -/

namespace Sys2Proof.Proofs.Control

open Sys2Proof Sys2Proof.Machine

/-! ## Jumps and linkage -/

/-- An address inside memory keeps its value in a 24-bit register, so PC ← m truncates nothing (R209). -/
theorem toNat_ofNat_address {m : Nat} (h : m ≤ maxAddr) : (BitVec.ofNat 24 m).toNat = m := by
  rw [BitVec.toNat_ofNat]
  exact Nat.mod_eq_of_lt (Nat.lt_of_le_of_lt h (by decide))

/-- Settles O37: inside memory the three continue with PC advanced, then write L and PC. -/
theorem jumpAndLinkageResult : Obligations.JumpAndLinkageResult := by
  intro o s h
  rw [exec_j, exec_jsub, exec_rsub, withOperand_inside _ h, withOperand_inside _ h,
    withOperand_inside _ h]
  exact ⟨rfl, rfl, rfl, toNat_ofNat_address h⟩

/-! ## The index instruction -/

/-- TIX of a readable word writes the new X and the code of its comparison with the word, whichever it
is (R216). -/
theorem exec_tix_result {o : Operand} {s : State} (hfit : effectiveAddress o s + 3 ≤ memSize) :
    exec (.tix o) s = .next { s with
      x := s.x + 1#24
      sw := conditionCode s.cfg (compareInts (readAs s.cfg.tixCmp (s.x + 1#24))
        (readAs s.cfg.tixCmp (wordAt s.mem (effectiveAddress o s))))
      pc := s.pc + 3#24 } := by
  rw [exec_tix, withWord_inside _ hfit]
  rfl

/-- Settles O40: under either setting the two numbers are the `readAs` readings that `exec_tix_result`
compares, with three outcomes. -/
theorem tixResult : Obligations.TixResult := by
  intro o s l r h hread
  obtain ⟨hl, hr⟩ : readAs s.cfg.tixCmp (s.x + 1#24) = l ∧
      readAs s.cfg.tixCmp (wordAt s.mem (effectiveAddress o s)) = r := by
    rcases hread with ⟨hcmp, rfl, rfl⟩ | ⟨hcmp, rfl, rfl⟩ <;> rw [hcmp] <;> exact ⟨rfl, rfl⟩
  rw [exec_tix_result (Nat.add_le_add_right h 3), hl, hr]
  refine ⟨BitVec.toNat_add s.x 1#24, fun hlt => ?_, fun heq => ?_, fun hgt => ?_⟩
  · rw [compareInts_lt hlt, conditionCode]
  · rw [compareInts_eq heq, conditionCode]
  · rw [compareInts_gt hgt, conditionCode]

/-! ## The program counter after an instruction -/

/-- Settles O46, by the shape of the next state: only the six jumps write PC after it is advanced. -/
theorem pcAfterEachInstruction : Obligations.PcAfterEachInstruction := by
  intro i s t h
  obtain ⟨-, hshape⟩ := exec_next h
  cases i with
  | j _ | jsub _ | rsub _ =>
    cases hshape
    rfl
  | jeq _ | jgt _ | jlt _ =>
    rw [show t = ite _ _ _ from hshape]
    exact apply_ite State.pc _ _ _
  | lda _ | ldx _ | ldl _ | ldch _ | stch _ | rd _ | wd _ | td _ =>
    cases hshape
    rfl
  | add _ | sub _ | mul _ | div _ | and _ | or _ | comp _ =>
    obtain ⟨_, rfl⟩ := hshape
    rfl
  | tix _ =>
    obtain ⟨_, _, rfl⟩ := hshape
    rfl
  | sta _ | stx _ | stl _ | stsw _ =>
    obtain ⟨-, rfl⟩ := hshape
    rfl
  | xos _ => exact hshape.elim

end Sys2Proof.Proofs.Control
end

section
/-! Proofs of the statements about the devices and the halt (spec/44_device_and_halt.md): RD, WD and TD with
no device attached (O41) and with one (O42), XOS (O43), the idle byte (O44), and the ends of runs as the host's
loop sees them (O55). -/

namespace Sys2Proof.Proofs.DeviceHalt

open Sys2Proof Sys2Proof.Machine Sys2Proof.Claims Sys2Proof.Proofs.Scope

/-! ## The device instructions and XOS -/

/-- Settles O41: with no device attached each of the three goes on with the advanced state. -/
theorem deviceInstructionsWithoutDeviceOnlyAdvancePc :
    Obligations.DeviceInstructionsWithoutDeviceOnlyAdvancePc := by
  intro o s h hd
  rw [exec_rd, exec_wd, exec_td]
  exact ⟨withAbsentDevice_absent .rd _ h hd, withAbsentDevice_absent .wd _ h hd,
    withAbsentDevice_absent .td _ h hd⟩

/-- Settles O42: with one attached each is refused under its own mnemonic. -/
theorem attachedDeviceIsRefusedByName : Obligations.AttachedDeviceIsRefusedByName := by
  intro o s h hd
  rw [exec_rd, exec_wd, exec_td]
  exact ⟨withAbsentDevice_attached .rd _ h hd, withAbsentDevice_attached .wd _ h hd,
    withAbsentDevice_attached .td _ h hd⟩

/-- Settles O43: XOS raises its halt in the advanced state. -/
theorem xosHaltsNormally : Obligations.XosHaltsNormally := by
  intro o s h
  rw [exec_xos, withOperand_inside _ h]
  rfl

/-! ## The idle byte

Every operation an instruction is built from answers alike under another value of `IDLE_BYTE`, with that
value carried along: the operation commutes with `withIdleByte b`. -/

section
variable (b : Byte)

theorem readReg_withIdleByte (s : State) (r : Reg) : readReg (withIdleByte b s) r = readReg s r := by
  cases r <;> rfl

theorem advance_withIdleByte (s : State) :
    advance (withIdleByte b s) = withIdleByte b (advance s) := rfl

theorem fetch_withIdleByte (s : State) : fetch (withIdleByte b s) = fetch s := rfl

theorem attempt_withIdleByte {α : Type} (e : Except HaltReason α) {s : State} {k k' : α → Result}
    (hk : ∀ v, k' v = mapState (withIdleByte b) (k v)) :
    attempt e (withIdleByte b s) k' = mapState (withIdleByte b) (attempt e s k) := by
  cases e with
  | ok v => exact hk v
  | error r => rfl

theorem withOperand_withIdleByte (o : Operand) {s : State} {k : Nat → State → Result}
    (hk : ∀ m, k m (withIdleByte b (advance s)) = mapState (withIdleByte b) (k m (advance s))) :
    withOperand o (withIdleByte b s) k = mapState (withIdleByte b) (withOperand o s k) := by
  have heff : effectiveAddress o (withIdleByte b s) = effectiveAddress o s := rfl
  rcases withOperand_cases o s k with ⟨hout, h⟩ | ⟨hin, h⟩ <;> rw [h]
  · rw [withOperand_outside k (heff ▸ hout)]
    rfl
  · rw [withOperand_inside k (heff ▸ hin), heff, advance_withIdleByte]
    exact hk _

theorem withWord_withIdleByte (o : Operand) {s : State} {k : Word → State → Result}
    (hk : ∀ w, k w (withIdleByte b (advance s)) = mapState (withIdleByte b) (k w (advance s))) :
    withWord o (withIdleByte b s) k = mapState (withIdleByte b) (withWord o s k) :=
  withOperand_withIdleByte b o fun _ => attempt_withIdleByte b _ hk

theorem storeWord_withIdleByte (r : Reg) (o : Operand) (s : State) :
    storeWord r o (withIdleByte b s) = mapState (withIdleByte b) (storeWord r o s) := by
  refine withOperand_withIdleByte b o fun m => ?_
  rw [readReg_withIdleByte]
  exact attempt_withIdleByte b _ fun _ => rfl

theorem commitA_withIdleByte (mn : Mnemonic) (v : Int) (s : State) :
    commitA mn v (withIdleByte b s) = mapState (withIdleByte b) (commitA mn v s) := by
  by_cases hv : inRange v
  · rw [commitA_inRange mn _ hv, commitA_inRange mn _ hv]
    rfl
  · rw [commitA_outOfRange mn _ hv, commitA_outOfRange mn _ hv]
    rfl

theorem jumpIf_withIdleByte (c : Condition) (o : Operand) (s : State) :
    jumpIf c o (withIdleByte b s) = mapState (withIdleByte b) (jumpIf c o s) := by
  rw [jumpIf_eq, jumpIf_eq]
  refine withOperand_withIdleByte b o fun m => ?_
  rw [mapState, apply_ite (withIdleByte b)]
  rfl

/-- Attached or not is another parameter than the idle byte, and the byte an absent device answers is
discarded (R240, R279). -/
theorem withAbsentDevice_withIdleByte (mn : Mnemonic) (o : Operand) (s : State) :
    (withAbsentDevice mn o (withIdleByte b s) fun _ s1 => .next s1) =
      mapState (withIdleByte b) (withAbsentDevice mn o s fun _ s1 => .next s1) := by
  refine withOperand_withIdleByte b o fun m => ?_
  have hd : (withIdleByte b (advance s)).cfg.device = (advance s).cfg.device := rfl
  rw [hd]
  cases (advance s).cfg.device <;> rfl

theorem exec_withIdleByte (i : Instr) (s : State) :
    exec i (withIdleByte b s) = mapState (withIdleByte b) (exec i s) := by
  cases i with
  | lda o | ldx o | ldl o =>
    simp only [exec_lda, exec_ldx, exec_ldl, loadWord_eq]
    exact withWord_withIdleByte b o fun _ => rfl
  | sta o | stx o | stl o | stsw o =>
    simp only [exec_sta, exec_stx, exec_stl, exec_stsw]
    exact storeWord_withIdleByte b _ o s
  | ldch o | stch o =>
    simp only [exec_ldch_eq, exec_stch_eq]
    exact withOperand_withIdleByte b o fun _ => attempt_withIdleByte b _ fun _ => rfl
  | add o | sub o | mul o =>
    simp only [exec_add, exec_sub, exec_mul]
    exact withWord_withIdleByte b o fun _ => commitA_withIdleByte b _ _ _
  | div o =>
    simp only [exec_div]
    refine withWord_withIdleByte b o fun w => ?_
    by_cases hw : sgn24 w = 0
    · simp only [hw, if_true]
      rfl
    · simp only [hw, if_false]
      exact commitA_withIdleByte b _ _ _
  | and o | or o | comp o | tix o =>
    simp only [exec_and, exec_or, exec_comp, exec_tix]
    exact withWord_withIdleByte b o fun _ => rfl
  | jeq o | jgt o | jlt o =>
    simp only [exec_jeq, exec_jgt, exec_jlt]
    exact jumpIf_withIdleByte b _ o s
  | j o | jsub o | rsub o =>
    simp only [exec_j, exec_jsub, exec_rsub]
    exact withOperand_withIdleByte b o fun _ => rfl
  | rd o | wd o | td o =>
    simp only [exec_rd, exec_wd, exec_td]
    exact withAbsentDevice_withIdleByte b _ o s
  | xos o =>
    simp only [exec_xos]
    exact withOperand_withIdleByte b o fun _ => rfl

end

/-- Settles O44: the fetch reads no idle byte, and every instruction commutes with a change of it. -/
theorem idleByteIsUnobservable : Obligations.IdleByteIsUnobservable := by
  intro s b
  rw [step, fetch_withIdleByte]
  exact attempt_withIdleByte b _ fun i => exec_withIdleByte b i s

/-! ## Runs of the host's loop -/

section
variable {M : Host.Core} {s : M.State} (k : Nat)

theorem run_succ_of_next {s' : M.State} (h : M.step s = .next s') :
    M.run (k + 1) s = M.run k s' := by
  rw [Host.Core.run, h]

theorem run_succ_of_fault {f : M.Fault} (h : M.step s = .fault f) :
    M.run (k + 1) s = .fault f := by
  rw [Host.Core.run, h]

theorem run_succ_of_refused {q : M.Refusal} (h : M.step s = .refused q) :
    M.run (k + 1) s = .refused q := by
  rw [Host.Core.run, h]

end

/-- The run's length is the number of steps the host's loop needs. -/
theorem exists_run_of_runEnds {s left : State} {r : HaltReason} (h : RunEnds s r left) :
    ∃ k, core.run k s = .fault (.halt r left) := by
  induction h with
  | halts hs => exact ⟨1, run_succ_of_fault (M := core) 0 hs⟩
  | continues hs _ ih =>
    obtain ⟨k, hk⟩ := ih
    exact ⟨k + 1, (run_succ_of_next (M := core) k hs).trans hk⟩

theorem runEnds_of_run {s left : State} {r : HaltReason} {k : Nat}
    (h : core.run k s = .fault (.halt r left)) : RunEnds s r left := by
  induction k generalizing s with
  | zero => cases h
  | succ k ih =>
    cases hs : step s with
    | next s' => exact .continues hs (ih ((run_succ_of_next (M := core) k hs).symm.trans h))
    | fault f =>
      cases (run_succ_of_fault (M := core) k hs).symm.trans h
      exact .halts hs
    | refused q => cases (run_succ_of_refused (M := core) k hs).symm.trans h

/-- Settles O55, by induction on the run and on the number of steps. -/
theorem runEndsAreTheEndsOfCoreRuns : Obligations.RunEndsAreTheEndsOfCoreRuns :=
  fun _ _ _ => ⟨exists_run_of_runEnds, fun ⟨_, h⟩ => runEnds_of_run h⟩

end Sys2Proof.Proofs.DeviceHalt
end
